-- ==== Sys2Proof/Word.lean ====
section
/-! DEFINITION. The word types of the engine's ports and registers, and the two closed sets of names the spec gives:
the three channels and the eight fault codes. -/

namespace Sys2Proof

/-- One byte: the content of one chip register, or one register number (R40, R41). -/
abbrev Byte := BitVec 8

/-- A frequency in whole Hz, unsigned 32-bit (R10 W_FREQ, R19). -/
abbrev Freq := BitVec 32

/-- A command word, moved whole on the 64-bit command port (R60, R62). -/
abbrev CmdWord := BitVec 64

/-- A response word, moved whole on the 128-bit response port (R60, R68). -/
abbrev RespWord := BitVec 128

/-- The three channels, indexed 0 to 2 (R10 N_CH, R18). -/
inductive Channel where
  | ch0
  | ch1
  | ch2
  deriving DecidableEq, Repr

/-- The fault codes of R151, complete. Their numbers are in `Machine.faultCodeBits`. -/
inductive FaultCode where
  /-- OP is 0x0 or 0x7 to 0xF (R65). -/
  | illegalOpcode
  /-- An RSVD bit set, or a field the command does not use is not zero (R66). -/
  | reservedBits
  /-- CH = 3 (R67). -/
  | illegalChannel
  /-- SETFREQ while INIT_DONE = 0 (R101). -/
  | notInitialised
  /-- INIT while INIT_DONE = 1 (R125). -/
  | reinit
  /-- COMPUTE with fout outside FMIN..FMAX (R87). -/
  | computeOutOfRange
  /-- In-range SETFREQ whose P1 would be negative or at least 2^20 (R106). -/
  | dividerOutOfField
  /-- SETVCO 0 while a channel is enabled (R132). -/
  | vcoZeroWhileEnabled
  deriving DecidableEq, Repr

end Sys2Proof
end

