-- ==== Sys2Proof/Syntax.lean ====
section
/-! DEFINITION. The command set as syntax: one constructor per row of spec/opcode_table.json (R64). -/

namespace Sys2Proof

/-- The six commands, with the operands R63 assembles from the command word.
A channel operand keeps its two bits: a channel of 3 can be written and faults when executed (R67, R75; log entry 9). -/
inductive Instr where
  /-- INIT (R120). -/
  | init
  /-- SETFREQ ch, fout (R100). -/
  | setfreq (ch : BitVec 2) (fout : Freq)
  /-- SETVCO vco (R131). -/
  | setvco (vco : Freq)
  /-- SETRDIV r (R133). -/
  | setrdiv (r : BitVec 3)
  /-- SETDRIVE ch, code (R134). -/
  | setdrive (ch : BitVec 2) (code : BitVec 2)
  /-- COMPUTE fout (R87). -/
  | compute (fout : Freq)
  deriving DecidableEq, Repr

end Sys2Proof
end

