-- ==== Sys2Proof/WellFormed.lean ====
section
/-! DEFINITION. When an instruction is well formed: its channel operand names one of the three channels (R64, R67).
Every other operand fits its field by its type. -/

namespace Sys2Proof

/-- The channel operand is 0, 1 or 2 (R64: CH is 0..2; R67: 3 is illegal). -/
def wellFormedChannel (ch : BitVec 2) : Bool := decide (ch ≠ 3#2)

/-- The instruction's operands are the ones R64 lists for its row. -/
def Instr.wellFormed : Instr → Bool
  | .init => true
  | .setfreq ch _ => wellFormedChannel ch
  | .setvco _ => true
  | .setrdiv _ => true
  | .setdrive ch _ => wellFormedChannel ch
  | .compute _ => true

end Sys2Proof
end

