-- ==== Sys2Proof/Decode.lean ====
section
/-! DEFINITION. The command word's fields (R62), the decoder (R63 to R67), the encoder from the same table (R62, R64),
and the host's reading of one row of the opcode table. -/

namespace Sys2Proof

/-- OP, bits 63..60 (R62). -/
def fieldOp (w : CmdWord) : BitVec 4 := w.extractLsb' 60 4

/-- RSVD, bits 59..34 (R62). -/
def fieldRsvd (w : CmdWord) : BitVec 26 := w.extractLsb' 34 26

/-- CH, bits 33..32 (R62). -/
def fieldCh (w : CmdWord) : BitVec 2 := w.extractLsb' 32 2

/-- DATA, bits 31..0 (R62). -/
def fieldData (w : CmdWord) : BitVec 32 := w.extractLsb' 0 32

/-- Opcodes of R64. -/
def opInit : BitVec 4 := 0x1#4
def opSetfreq : BitVec 4 := 0x2#4
def opSetvco : BitVec 4 := 0x3#4
def opSetrdiv : BitVec 4 := 0x4#4
def opSetdrive : BitVec 4 := 0x5#4
def opCompute : BitVec 4 := 0x6#4

/-- What the decoder answers: an instruction, or the decode fault the word raises. -/
inductive Decoded where
  | instr (i : Instr)
  | rejected (why : FaultCode)
  deriving DecidableEq, Repr

/-- The instruction if every bit the command does not use is zero, else RESERVED_BITS (R66). -/
def unlessReserved (unusedZero : Bool) (i : Instr) : Decoded :=
  if unusedZero then .instr i else .rejected .reservedBits

/-- The decoder, total on every word and depending on the word alone (R69).
Reserved opcodes are reported before reserved bits (R65, R66, R154). -/
def decode (w : CmdWord) : Decoded :=
  if fieldOp w = opInit then
    unlessReserved (fieldRsvd w == 0#26 && fieldCh w == 0#2 && fieldData w == 0#32) .init
  else if fieldOp w = opSetfreq then
    unlessReserved (fieldRsvd w == 0#26) (.setfreq (fieldCh w) (fieldData w))
  else if fieldOp w = opSetvco then
    unlessReserved (fieldRsvd w == 0#26 && fieldCh w == 0#2) (.setvco (fieldData w))
  else if fieldOp w = opSetrdiv then
    unlessReserved (fieldRsvd w == 0#26 && fieldCh w == 0#2 && (fieldData w).extractLsb' 3 29 == 0#29)
      (.setrdiv ((fieldData w).extractLsb' 0 3))
  else if fieldOp w = opSetdrive then
    unlessReserved (fieldRsvd w == 0#26 && (fieldData w).extractLsb' 2 30 == 0#30)
      (.setdrive (fieldCh w) ((fieldData w).extractLsb' 0 2))
  else if fieldOp w = opCompute then
    unlessReserved (fieldRsvd w == 0#26 && fieldCh w == 0#2) (.compute (fieldData w))
  else .rejected .illegalOpcode

/-- `word = (OP << 60) | (RSVD << 34) | (CH << 32) | DATA` with RSVD = 0 (R62). -/
def packWord (op : BitVec 4) (ch : BitVec 2) (data : BitVec 32) : CmdWord := op ++ 0#26 ++ ch ++ data

/-- The encoder: each instruction's word by R64. -/
def encode : Instr → CmdWord
  | .init => packWord opInit 0#2 0#32
  | .setfreq ch fout => packWord opSetfreq ch fout
  | .setvco vco => packWord opSetvco 0#2 vco
  | .setrdiv r => packWord opSetrdiv 0#2 (0#29 ++ r)
  | .setdrive ch code => packWord opSetdrive ch (0#30 ++ code)
  | .compute fout => packWord opCompute 0#2 fout

/-- The command word a table word of `nbits` bits stands for: the bits above `nbits` are zero.
Words of the table and of the port number their bits alike (R13, R62). -/
def tableWord (nbits w : Nat) : CmdWord := BitVec.ofNat 64 (w % 2 ^ nbits)

/-- The instruction the decoder reads from a table word, none where it rejects the word. -/
def decodeTableWord (nbits w : Nat) : Option Instr :=
  match decode (tableWord nbits w) with
  | .instr i => some i
  | .rejected _ => none

end Sys2Proof
end

