-- ==== Sys2Proof/Machine/Params.lean ====
section
/-! DEFINITION. The parameters the spec fixes: R10 (from the source) and R11 (by decision). -/

namespace Sys2Proof.Machine

/-- FMIN, in Hz (R10). -/
def fMin : Nat := 500000

/-- FMAX, in Hz (R10). -/
def fMax : Nat := 109000000

/-- OE_ADDR, the output-enable mask register (R10). -/
def oeAddr : Byte := 3#8

/-- CTRL_BASE, the control register of channel 0 (R10). -/
def ctrlBase : Byte := 16#8

/-- CTRL_SRC, the "use local multisynth" flag (R10). -/
def ctrlSrc : Byte := 0x0C#8

/-- PLLA_MS_ADDR, the VCO A multisynth's first register (R10). -/
def pllaMsAddr : Byte := 26#8

/-- MS_BASE, the multisynth of channel 0 (R10). -/
def msBase : Byte := 42#8

/-- MS_STRIDE, registers per channel multisynth (R10). -/
def msStride : Byte := 8#8

/-- SSC_ADDR (R10). -/
def sscAddr : Byte := 149#8

/-- RST_ADDR (R10). -/
def rstAddr : Byte := 177#8

/-- XTAL_ADDR (R10). -/
def xtalAddr : Byte := 183#8

/-- SSC_OFF_VALUE (R11, D11). -/
def sscOffValue : Byte := 0x00#8

/-- RST_VALUE, bit 5 only (R11, R73, R124). -/
def rstValue : Byte := 0x20#8

/-- The VCO A divider PLLA_A, PLLA_B, PLLA_C (R10). -/
def pllaA : Nat := 35
def pllaB : Nat := 0
def pllaC : Nat := 1

/-- The first value P1 cannot take: 2^20, where the exponent's bits begin (R10 RDIV_SHIFT, R106). -/
def p1Limit : Nat := 2 ^ 20

/-- C_BITS: c, P2 and P3 fit in 20 bits (R10). -/
def cBits : Nat := 20

/-- Upper bound on the normalization shifts for any 32-bit fout (R86: k ≤ 12). -/
def maxShifts : Nat := 12

end Sys2Proof.Machine
end

