-- ==== Sys2Proof/Machine/State.lean ====
section
/-! DEFINITION. The engine's state as plain data: the registers of R22, the host's side of the command port and the reset
input, the record of what left the engine on its ports, and the chip's register space as the engine has written it. -/

namespace Sys2Proof.Machine

/-- Why a step could stop outside the engine's own state. EMPTY ON PURPOSE: the spec describes every fault of R151 as
an effect (FAULT, FAULT_CODE and a response, R150) and what the engine does after it (R152), so each is a next state
(log entry 5). -/
inductive Fault where
  deriving DecidableEq, Repr

/-- Why an instruction has no meaning. -/
inductive Refusal where
  /-- Raised by an arm of `exec` whose instruction has no meaning yet; no arm raises it now. Safe. -/
  | notModelled (mnemonic : String)
  deriving DecidableEq, Repr

/-- The eight bytes of a block write, at register offsets 0 to 7 (R42, R70). -/
structure Block where
  b0 : Byte
  b1 : Byte
  b2 : Byte
  b3 : Byte
  b4 : Byte
  b5 : Byte
  b6 : Byte
  b7 : Byte
  deriving DecidableEq, Repr

/-- What the engine hands the transport: one register write, or one block of eight (R42). -/
inductive Transaction where
  /-- `W(addr, v)`. -/
  | w (addr : Byte) (v : Byte)
  /-- `B(addr, [v0, ..., v7])`. -/
  | b (addr : Byte) (bytes : Block)
  deriving DecidableEq, Repr

/-- A response before it is laid out as a word (R68). -/
inductive Response where
  | ok
  | result (a b c : BitVec 32)
  | fault (code : FaultCode)
  deriving DecidableEq, Repr

/-- One thing that left the engine: a transaction on the transaction port, or a word on the response port (R60). -/
inductive PortEvent where
  | write (t : Transaction)
  | response (w : RespWord)
  deriving DecidableEq, Repr

/-- One thing the host does to the engine: it offers a command word, or it gives the reset event (R60, R170). -/
inductive HostInput where
  | command (w : CmdWord)
  | reset
  deriving DecidableEq, Repr

/-- The chip's register space: (register number, byte) pairs with register numbers strictly rising.
A register that is not listed has received nothing: its content is unknown (R171; log entry 7). -/
abbrev Memory := List Host.Cell

/-- Everything the spec gives the machine. -/
structure State where
  /-- VCO_REF (R23). -/
  vcoRef : BitVec 32
  /-- RDIV, the shared output-divide exponent (R25). -/
  rdiv : BitVec 3
  /-- DRIVE[0] (R26). -/
  drive0 : BitVec 2
  /-- DRIVE[1] (R26). -/
  drive1 : BitVec 2
  /-- DRIVE[2] (R26). -/
  drive2 : BitVec 2
  /-- EN_MASK, bit ch = 1 means channel ch is disabled (R27, R28). -/
  enMask : BitVec 8
  /-- INIT_DONE (R29). -/
  initDone : Bool
  /-- FAULT (R30). -/
  fault : Bool
  /-- FAULT_CODE (R30, R151). -/
  faultCode : BitVec 4
  /-- What the host does from here on, first to come first (R60, R170; log entry 2). -/
  inputs : List HostInput
  /-- What the engine has put on its ports, oldest first: the transcript of R16 (log entry 8). -/
  trace : List PortEvent
  /-- The chip's register space as the transport has delivered it (R41, R43, R51; log entry 7). -/
  chip : Memory
  deriving DecidableEq, Repr

/-- The engine right after reset (R22, R170), with nothing offered, nothing emitted, and nothing known of the chip
(R171; log entry 7). -/
def State.reset : State where
  vcoRef := 875000000#32
  rdiv := 0#3
  drive0 := 1#2
  drive1 := 1#2
  drive2 := 1#2
  enMask := 0xFF#8
  initDone := false
  fault := false
  faultCode := 0#4
  inputs := []
  trace := []
  chip := []

end Sys2Proof.Machine
end

