-- ==== Sys2Proof/Machine/Divider.lean ====
section
/-! DEFINITION. The Divider Calculator (R80 to R82) and the packing of its result into the multisynth layout
(R105 to R109, R70). Working values are mathematical integers (R12). -/

namespace Sys2Proof.Machine

/-- The MultisynthDivider (a, b, c), divide ratio a + b/c (R17, R80). -/
structure Divider where
  a : Nat
  b : Nat
  c : Nat
  deriving DecidableEq, Repr

/-- Step 4: while c has a bit at position 20 or above, halve b and c. `fuel` bounds the shifts (R82, R86; log entry 14). -/
def normalize (fuel b c : Nat) : Nat × Nat :=
  match fuel with
  | 0 => (b, c)
  | n + 1 => if c >>> cBits ≠ 0 then normalize n (b >>> 1) (c >>> 1) else (b, c)

/-- computeDivider(vco, fout). Every call in the engine has fout in the serviceable range (R80 to R83; log entry 13). -/
def computeDivider (vco fout : Freq) : Divider :=
  let bc := normalize maxShifts (vco.toNat % fout.toNat) fout.toNat
  { a := vco.toNat / fout.toNat, b := bc.1, c := bc.2 }

/-- q = floor(128 × b / c) (R105). -/
def quotient128 (d : Divider) : Nat := 128 * d.b / d.c

/-- p1 = 128 × a + q − 512, a mathematical integer that may be negative (R105). -/
def rawP1 (d : Divider) : Int := 128 * (d.a : Int) + (quotient128 d : Int) - 512

/-- P1, P2, P3: 20 bits each (R70). -/
structure Packed where
  p1 : BitVec 20
  p2 : BitVec 20
  p3 : BitVec 20
  deriving DecidableEq, Repr

/-- The packed fields, or none when p1 does not lie in 0 to 2^20 − 1 (R106, R107). -/
def packFields (d : Divider) : Option Packed :=
  if 0 ≤ rawP1 d ∧ rawP1 d < (p1Limit : Int) then
    some { p1 := BitVec.ofNat 20 (rawP1 d).toNat
           p2 := BitVec.ofNat 20 (128 * d.b - quotient128 d * d.c)
           p3 := BitVec.ofNat 20 d.c }
  else none

/-- PW = P1 | (RDIV << 20), 24 bits (R108). -/
def p1Word (p1 : BitVec 20) (rdiv : BitVec 3) : BitVec 24 := p1.setWidth 24 ||| (rdiv.setWidth 24 <<< 20)

/-- The 8-byte multisynth layout, each field's high byte at the lower register (R47, R70, R109). -/
def multisynthBlock (f : Packed) (rdiv : BitVec 3) : Block :=
  let pw := p1Word f.p1 rdiv
  { b0 := f.p3.extractLsb' 8 8
    b1 := f.p3.extractLsb' 0 8
    b2 := pw.extractLsb' 16 8
    b3 := pw.extractLsb' 8 8
    b4 := pw.extractLsb' 0 8
    b5 := ((f.p3.extractLsb' 16 4).setWidth 8 <<< 4) ||| (f.p2.extractLsb' 16 4).setWidth 8
    b6 := f.p2.extractLsb' 8 8
    b7 := f.p2.extractLsb' 0 8 }

/-- The VCO A multisynth's bytes (R120, R122). -/
def pllaBlock : Block :=
  { b0 := 0x00#8, b1 := 0x01#8, b2 := 0x00#8, b3 := 0x0F#8, b4 := 0x80#8, b5 := 0x00#8, b6 := 0x00#8, b7 := 0x00#8 }

/-! Reading a block back (R117). -/

/-- P3 = (B5[7:4] << 16) | (B0 << 8) | B1 (R117). -/
def unpackP3 (d : Block) : BitVec 20 := d.b5.extractLsb' 4 4 ++ d.b0 ++ d.b1

/-- PW = (B2 << 16) | (B3 << 8) | B4 (R117). -/
def unpackPW (d : Block) : BitVec 24 := d.b2 ++ d.b3 ++ d.b4

/-- P1 = PW[19:0] (R117). -/
def unpackP1 (d : Block) : BitVec 20 := (unpackPW d).extractLsb' 0 20

/-- rdiv = PW[22:20] (R117). -/
def unpackRdiv (d : Block) : BitVec 3 := (unpackPW d).extractLsb' 20 3

/-- P2 = (B5[3:0] << 16) | (B6 << 8) | B7 (R117). -/
def unpackP2 (d : Block) : BitVec 20 := d.b5.extractLsb' 0 4 ++ d.b6 ++ d.b7

/-- N = ((P1 + 512) × P3 + P2) / 128, then a' = N / c, b' = N mod c with c = P3 (R117). -/
def unpackDivider (d : Block) : Divider :=
  let c := (unpackP3 d).toNat
  let n := (((unpackP1 d).toNat + 512) * c + (unpackP2 d).toNat) / 128
  { a := n / c, b := n % c, c := c }

end Sys2Proof.Machine
end

