-- ==== Sys2Proof/Machine/Operands.lean ====
section
/-! DEFINITION. Operand forms: the channel operand, the serviceability check, the drive register a channel operand
selects, and the chip register numbers a channel operand generates. -/

namespace Sys2Proof.Machine

/-- The channel a CH operand names, none for 3 (R63, R67). -/
def channelOf (ch : BitVec 2) : Option Channel :=
  if ch = 0#2 then some .ch0
  else if ch = 1#2 then some .ch1
  else if ch = 2#2 then some .ch2
  else none

/-- A channel's index (R10, R18). -/
def channelIndex : Channel → Nat
  | .ch0 => 0
  | .ch1 => 1
  | .ch2 => 2

/-- The serviceability check, on fout alone, both bounds in range (R102). -/
def inRange (fout : Freq) : Bool := decide (fMin ≤ fout.toNat) && decide (fout.toNat ≤ fMax)

/-- DRIVE[ch], read (R26). -/
def readDrive (ch : Channel) (s : State) : BitVec 2 :=
  match ch with
  | .ch0 => s.drive0
  | .ch1 => s.drive1
  | .ch2 => s.drive2

/-- DRIVE[ch] <- code (R14, R134). -/
def writeDrive (ch : Channel) (code : BitVec 2) (s : State) : State :=
  match ch with
  | .ch0 => { s with drive0 := code }
  | .ch1 => { s with drive1 := code }
  | .ch2 => { s with drive2 := code }

/-- MS_ADDR(ch) = 42 + 8 × ch (R110). -/
def msAddr (ch : Channel) : Byte := msBase + msStride * BitVec.ofNat 8 (channelIndex ch)

/-- CTRL_ADDR(ch) = 16 + ch (R113). -/
def ctrlAddr (ch : Channel) : Byte := ctrlBase + BitVec.ofNat 8 (channelIndex ch)

end Sys2Proof.Machine
end

