-- ==== Sys2Proof/Machine/Flags.lean ====
section
/-! DEFINITION. The status bits: the enable mask's bits (R27, R28, R114), the numbers of the fault codes (R151), and the
status output (R60). -/

namespace Sys2Proof.Machine

/-- The mask with only bit ch set: bit ch belongs to channel ch (R27). -/
def channelBit (ch : Channel) : BitVec 8 := 1#8 <<< channelIndex ch

/-- EN_MASK with EN_MASK[ch] <- 1, every other bit kept (R103, R114). -/
def maskDisable (ch : Channel) (m : BitVec 8) : BitVec 8 := m ||| channelBit ch

/-- EN_MASK with EN_MASK[ch] <- 0, every other bit kept (R114). -/
def maskEnable (ch : Channel) (m : BitVec 8) : BitVec 8 := m &&& ~~~(channelBit ch)

/-- The all-ones mask INIT writes (R121). -/
def maskAllDisabled : BitVec 8 := 0xFF#8

/-- Channel ch is Enabled exactly when EN_MASK[ch] = 0 (R28). -/
def isEnabled (ch : Channel) (m : BitVec 8) : Bool := !m.getLsbD (channelIndex ch)

/-- Some channel is enabled: EN_MASK[2:0] ≠ 0b111 (R131, R132). -/
def anyEnabled (m : BitVec 8) : Bool := m.extractLsb' 0 3 != 0b111#3

/-- The 4-bit number of each fault code (R151). -/
def faultCodeBits : FaultCode → BitVec 4
  | .illegalOpcode => 1#4
  | .reservedBits => 2#4
  | .illegalChannel => 3#4
  | .notInitialised => 4#4
  | .reinit => 5#4
  | .computeOutOfRange => 6#4
  | .dividerOutOfField => 7#4
  | .vcoZeroWhileEnabled => 8#4

/-- The status output, always driven: FAULT in bit 4, FAULT_CODE in bits 3..0 (R30, R60). -/
def status (s : State) : BitVec 5 := BitVec.ofBool s.fault ++ s.faultCode

end Sys2Proof.Machine
end

