-- ==== Sys2Proof/Machine/Ops.lean ====
section
/-! DEFINITION. The shared operations: the chip's register space, emitting a transaction, giving a response, raising a
fault, and the reset event. -/

namespace Sys2Proof.Machine

/-- The byte register `a` last received, none if it received nothing (R41, R171; log entry 7). -/
def Memory.read (m : Memory) (a : Nat) : Option Byte :=
  match m with
  | [] => none
  | (k, v) :: rest => if k = a then some v else Memory.read rest a

/-- Register `a` receives `v`; register numbers stay strictly rising (R43). -/
def Memory.write (m : Memory) (a : Nat) (v : Byte) : Memory :=
  match m with
  | [] => [(a, v)]
  | (k, u) :: rest =>
    if a < k then (a, v) :: (k, u) :: rest
    else if a = k then (a, v) :: rest
    else (k, u) :: Memory.write rest a v

/-- Every register number is at least `lo`, strictly rising, and one of 0 to 255 (R41). -/
def Memory.wfFrom (lo : Nat) (m : Memory) : Bool :=
  match m with
  | [] => true
  | (k, _) :: rest => decide (lo ≤ k) && decide (k < 256) && Memory.wfFrom (k + 1) rest

/-- The canonical form of the register space. -/
def Memory.wf (m : Memory) : Bool := Memory.wfFrom 0 m

/-- The register that offset `i` of a block at `addr` names. No block the engine emits passes 255 (R43; log entry 12). -/
def blockReg (addr : Byte) (i : Nat) : Nat := (addr + BitVec.ofNat 8 i).toNat

/-- What the chip's registers have received after one more transaction: a block is the eight single writes in ascending
address order (R43). -/
def deliver (m : Memory) : Transaction → Memory
  | .w addr v => Memory.write m addr.toNat v
  | .b addr d =>
    let m := Memory.write m (blockReg addr 0) d.b0
    let m := Memory.write m (blockReg addr 1) d.b1
    let m := Memory.write m (blockReg addr 2) d.b2
    let m := Memory.write m (blockReg addr 3) d.b3
    let m := Memory.write m (blockReg addr 4) d.b4
    let m := Memory.write m (blockReg addr 5) d.b5
    let m := Memory.write m (blockReg addr 6) d.b6
    Memory.write m (blockReg addr 7) d.b7

/-- Byte `i` of a block, 0 to 7: the byte register offset `i` receives (R43, R70). -/
def Block.byteAt (d : Block) (i : Nat) : Byte :=
  match i with
  | 0 => d.b0
  | 1 => d.b1
  | 2 => d.b2
  | 3 => d.b3
  | 4 => d.b4
  | 5 => d.b5
  | 6 => d.b6
  | _ => d.b7

/-- The byte chip register `a` last received. No command reads it (R41): only statements do. -/
def State.chipByte (s : State) (a : Nat) : Option Byte := Memory.read s.chip a

/-- Emit one transaction: it goes on the transaction port and the transport delivers it (R15, R40, R51, R57). -/
def emit (t : Transaction) (s : State) : State :=
  { s with trace := s.trace ++ [.write t], chip := deliver s.chip t }

/-- The 128-bit response word: KIND 127..126, CODE 99..96, a 95..64, b 63..32, c 31..0, every other bit 0 (R68). -/
def responseWord : Response → RespWord
  | .ok => 0b00#2 ++ 0#26 ++ 0#4 ++ 0#32 ++ 0#32 ++ 0#32
  | .result a b c => 0b01#2 ++ 0#26 ++ 0#4 ++ a ++ b ++ c
  | .fault code => 0b10#2 ++ 0#26 ++ faultCodeBits code ++ 0#32 ++ 0#32 ++ 0#32

/-- `respond(x)`: place x on the response port as the command's completion (R15, R68). -/
def respond (r : Response) (s : State) : State :=
  { s with trace := s.trace ++ [.response (responseWord r)] }

/-- `raise Fault(code)`: FAULT <- 1, FAULT_CODE <- code, the response is FAULT(code), and nothing else happens
(R150, R155). There is no vector, no saved register and no handler (R156). -/
def raiseFault (code : FaultCode) (s : State) : State :=
  respond (.fault code) { s with fault := true, faultCode := faultCodeBits code }

/-- The reset event, the only way out of a fault: every engine register takes its reset value, no transaction is
emitted and the chip is not touched (R152, R170, R171; log entry 6). -/
def resetEvent (s : State) : State :=
  { State.reset with inputs := s.inputs, trace := s.trace, chip := s.chip }

/-- The transactions of the transcript, in order (R16). -/
def transactionsOf : List PortEvent → List Transaction
  | [] => []
  | .write t :: rest => t :: transactionsOf rest
  | .response _ :: rest => transactionsOf rest

/-- The response words of the transcript, in order (R16). -/
def responsesOf : List PortEvent → List RespWord
  | [] => []
  | .write _ :: rest => responsesOf rest
  | .response w :: rest => w :: responsesOf rest

end Sys2Proof.Machine
end

