-- ==== Sys2Proof/Machine/Calculator.lean ====
section
/-! DEFINITION. COMPUTE: the Divider Calculator run on its own (R87, R88). -/

namespace Sys2Proof.Machine

/-- RESULT(a, b, c), three 32-bit fields (R68, R88). No value is lost: a, b and c fit in 32 bits (R84). -/
def divisorResponse (d : Divider) : Response :=
  .result (BitVec.ofNat 32 d.a) (BitVec.ofNat 32 d.b) (BitVec.ofNat 32 d.c)

/-- COMPUTE fout (R87). -/
def execCompute (fout : Freq) (s : State) : Host.Outcome State Fault Refusal :=
  if inRange fout then .next (respond (divisorResponse (computeDivider s.vcoRef fout)) s)
  else .next (raiseFault .computeOutOfRange s)

end Sys2Proof.Machine
end

