-- ==== Sys2Proof/Config.lean ====
section
/-! DEFINITION. What the spec leaves open about one implementation: its one OPEN parameter.
The parameters the spec fixes (R10, R11) are in Machine/Params.lean. -/

namespace Sys2Proof

/-- XTAL_LOAD_VALUE, the byte INIT writes to register 183: OPEN, a model argument, any byte 0x00 to 0xFF
(R11, R74, decision D11; log entry 1). No body: no proof can know a value of it. -/
opaque Config.xtalLoadValue : Byte

end Sys2Proof
end

