-- ==== Sys2Proof/Machine/SetFrequency.lean ====
section
/-! DEFINITION. SETFREQ: serviceability, packing, address generation, the enable mask (R100 to R116). -/

namespace Sys2Proof.Machine

/-- The control byte CTRL_SRC | DRIVE[ch] (R71, R112). -/
def controlByte (drive : BitVec 2) : Byte := ctrlSrc ||| drive.setWidth 8

/-- EN_MASK <- m, then W(OE_ADDR, EN_MASK) with the updated value (R114). -/
def updateMask (m : BitVec 8) (s : State) : State := emit (.w oeAddr m) { s with enMask := m }

/-- The out-of-range path: the channel is shut off silently (R103). -/
def disableChannel (ch : Channel) (s : State) : State := respond .ok (updateMask (maskDisable ch s.enMask) s)

/-- The in-range path once the fields are packed: block, control byte, mask, in this order (R108 to R115). -/
def programChannel (ch : Channel) (f : Packed) (s : State) : State :=
  let s := emit (.b (msAddr ch) (multisynthBlock f s.rdiv)) s
  let s := emit (.w (ctrlAddr ch) (controlByte (readDrive ch s))) s
  respond .ok (updateMask (maskEnable ch s.enMask) s)

/-- SETFREQ for a channel that exists (R100 to R106): every check comes before the first write. -/
def setFrequency (ch : Channel) (fout : Freq) (s : State) : State :=
  if s.initDone then
    if inRange fout then
      match packFields (computeDivider s.vcoRef fout) with
      | none => raiseFault .dividerOutOfField s
      | some f => programChannel ch f s
    else disableChannel ch s
  else raiseFault .notInitialised s

/-- SETFREQ ch, fout (R100); a channel of 3 faults before the INIT check (R67, R154). -/
def execSetfreq (ch : BitVec 2) (fout : Freq) (s : State) : Host.Outcome State Fault Refusal :=
  match channelOf ch with
  | none => .next (raiseFault .illegalChannel s)
  | some c => .next (setFrequency c fout s)

end Sys2Proof.Machine
end

