-- ==== Sys2Proof/Machine/Configuration.lean ====
section
/-! DEFINITION. INIT (R120 to R125) and the configuration commands SETVCO, SETRDIV and SETDRIVE (R130 to R134). -/

namespace Sys2Proof.Machine

/-- The initialisation write sequence, in the order of R120 and R121, then INIT_DONE <- 1. -/
def initialise (s : State) : State :=
  let s := emit (.w sscAddr sscOffValue) s
  let s := updateMask maskAllDisabled s
  let s := emit (.w xtalAddr Config.xtalLoadValue) s
  let s := emit (.b pllaMsAddr pllaBlock) s
  let s := emit (.w rstAddr rstValue) s
  respond .ok { s with initDone := true }

/-- INIT (R120, R125). -/
def execInit (s : State) : Host.Outcome State Fault Refusal :=
  if s.initDone then .next (raiseFault .reinit s) else .next (initialise s)

/-- SETVCO vco (R131, R132). -/
def execSetvco (vco : Freq) (s : State) : Host.Outcome State Fault Refusal :=
  if vco = 0#32 ∧ anyEnabled s.enMask = true then .next (raiseFault .vcoZeroWhileEnabled s)
  else .next (respond .ok { s with vcoRef := vco })

/-- SETRDIV r (R133). -/
def execSetrdiv (r : BitVec 3) (s : State) : Host.Outcome State Fault Refusal :=
  .next (respond .ok { s with rdiv := r })

/-- SETDRIVE ch, code (R134); a channel of 3 faults (R67). -/
def execSetdrive (ch : BitVec 2) (code : BitVec 2) (s : State) : Host.Outcome State Fault Refusal :=
  match channelOf ch with
  | none => .next (raiseFault .illegalChannel s)
  | some c => .next (respond .ok (writeDrive c code s))

end Sys2Proof.Machine
end

