-- ==== Sys2Proof/Machine/Dispatch.lean ====
section
/-! DEFINITION. One arm per command, each a direct call of its meaning. -/

namespace Sys2Proof.Machine

/-- What an accepted, decoded command does. -/
def exec (i : Instr) (s : State) : Host.Outcome State Fault Refusal :=
  match i with
  | .init => Sys2Proof.Machine.execInit s
  | .setfreq ch fout => Sys2Proof.Machine.execSetfreq ch fout s
  | .setvco vco => Sys2Proof.Machine.execSetvco vco s
  | .setrdiv r => Sys2Proof.Machine.execSetrdiv r s
  | .setdrive ch code => Sys2Proof.Machine.execSetdrive ch code s
  | .compute fout => Sys2Proof.Machine.execCompute fout s

end Sys2Proof.Machine
end

