-- ==== Sys2Proof/Machine/Port.lean ====
section
/-! DEFINITION. The command port: what the engine does with the host's next input. -/

namespace Sys2Proof.Machine

/-- Take one command word the engine accepts: run what it decodes to, or raise its decode fault (R65, R66, R154). -/
def runWord (w : CmdWord) (s : State) : Host.Outcome State Fault Refusal :=
  match decode w with
  | .instr i => exec i s
  | .rejected why => .next (raiseFault why s)

/-- The host offers a command word: while FAULT = 1 the engine accepts none, and the offer passes with no transaction
and no response (R61, R152; log entry 3). -/
def offerCommand (w : CmdWord) (s : State) : Host.Outcome State Fault Refusal :=
  if s.fault then .next s else runWord w s

/-- The host's next input is taken off its list, then it happens. -/
def takeInput (x : HostInput) (s : State) : Host.Outcome State Fault Refusal :=
  match x with
  | .reset => .next (resetEvent s)
  | .command w => offerCommand w s

/-- One step: the host's next input, or waiting for one (R21, R173; log entries 2 and 4). -/
def serve (s : State) : Host.Outcome State Fault Refusal :=
  match s.inputs with
  | [] => .next s
  | x :: rest => takeInput x { s with inputs := rest }

/-- The host's next input is this command word. -/
def offerNext (w : CmdWord) (s : State) : State := { s with inputs := .command w :: s.inputs }

end Sys2Proof.Machine
end

