-- ==== Sys2Proof/Machine/Step.lean ====
section
/-! DEFINITION. The step, and how a table word is made the next command. -/

namespace Sys2Proof.Machine

/-- One step of the engine. -/
def step (s : State) : Host.Outcome State Fault Refusal := serve s

/-- `s` with a table word offered as the host's next command (log entry 2). -/
def State.withFetchWord (s : State) (nbits w : Nat) : State := offerNext (tableWord nbits w) s

end Sys2Proof.Machine
end

