-- ==== Sys2Proof/Machine/Assembler.lean ====
section
/-! DEFINITION. The assembler: the command lines and pseudo-commands of R75 and R76, from text to command words. -/

namespace Sys2Proof.Machine

/-- One line of assembly with its operands as numbers (R75, R76). -/
inductive AsmLine where
  | init
  | setfreq (ch fout : Nat)
  | setvco (vco : Nat)
  | setrdiv (r : Nat)
  | setdrive (ch code : Nat)
  | compute (fout : Nat)
  /-- `DISABLE ch`. -/
  | disable (ch : Nat)
  /-- `SETDRIVE ch, 2mA` and its like: the current in mA. -/
  | setdriveMa (ch milliamps : Nat)
  /-- `SETFREQX ch, fout, r`. -/
  | setfreqx (ch fout r : Nat)
  deriving DecidableEq, Repr

/-- The drive code of a current (R26, D8). -/
def driveCodeOf (milliamps : Nat) : Option (BitVec 2) :=
  if milliamps = 2 then some 0#2
  else if milliamps = 4 then some 1#2
  else if milliamps = 6 then some 2#2
  else if milliamps = 8 then some 3#2
  else none

/-- An operand that does not fit its field is refused (R75); a channel of 3 fits (R67). -/
def operandFits {w : Nat} (n : Nat) : Option (BitVec w) := if n < 2 ^ w then some (BitVec.ofNat w n) else none

/-- SETFREQ with its operands checked. -/
def asmSetfreq (ch fout : Nat) : Option Instr :=
  match operandFits ch, operandFits fout with
  | some c, some f => some (.setfreq c f)
  | _, _ => none

/-- SETDRIVE with its operands checked. -/
def asmSetdrive (ch : Nat) (code : Option (BitVec 2)) : Option Instr :=
  match operandFits ch, code with
  | some c, some d => some (.setdrive c d)
  | _, _ => none

/-- The commands a line stands for, none where an operand does not fit (R75, R76). -/
def assemble : AsmLine → Option (List Instr)
  | .init => some [.init]
  | .setfreq ch fout => (asmSetfreq ch fout).map fun i => [i]
  | .setvco vco => (operandFits vco).map fun v => [.setvco v]
  | .setrdiv r => (operandFits r).map fun v => [.setrdiv v]
  | .setdrive ch code => (asmSetdrive ch (operandFits code)).map fun i => [i]
  | .compute fout => (operandFits fout).map fun f => [.compute f]
  | .disable ch => (asmSetfreq ch 0).map fun i => [i]
  | .setdriveMa ch milliamps => (asmSetdrive ch (driveCodeOf milliamps)).map fun i => [i]
  | .setfreqx ch fout r =>
    match operandFits r, asmSetfreq ch fout with
    | some v, some i => some [.setrdiv v, i, .setrdiv 0#3]
    | _, _ => none

/-- The command words a line stands for (R62, R75). -/
def assembleWords (line : AsmLine) : Option (List CmdWord) := (assemble line).map (List.map encode)

/-! Reading a line of text. R75 and R76 give the operand forms; what else the text may look like is the model's choice
(log entry 16, DESIGN CHOICE). -/

def isBlank (c : Char) : Bool := c == ' ' || c == '\t'

/-- The characters without the blanks before and after them. -/
def trimBlanks (cs : List Char) : List Char := ((cs.dropWhile isBlank).reverse.dropWhile isBlank).reverse

/-- The pieces between commas. -/
def splitCommas : List Char → List (List Char)
  | [] => [[]]
  | c :: rest =>
    match splitCommas rest with
    | [] => [[c]]
    | piece :: more => if c == ',' then [] :: piece :: more else (c :: piece) :: more

def decimalDigit (c : Char) : Option Nat :=
  if '0'.toNat ≤ c.toNat ∧ c.toNat ≤ '9'.toNat then some (c.toNat - '0'.toNat) else none

def hexDigit (c : Char) : Option Nat :=
  if 'a'.toNat ≤ c.toNat ∧ c.toNat ≤ 'f'.toNat then some (c.toNat - 'a'.toNat + 10)
  else if 'A'.toNat ≤ c.toNat ∧ c.toNat ≤ 'F'.toNat then some (c.toNat - 'A'.toNat + 10)
  else decimalDigit c

/-- Decimal digits after `acc`; an underscore only groups digits (R12, R75). DESIGN CHOICE: an underscore may also end the
number or stand doubled, `7_` and `1__0`, where R12 speaks of one inside a number only (log entry 16). -/
def decimalFrom (acc : Nat) : List Char → Option Nat
  | [] => some acc
  | c :: rest =>
    if c == '_' then decimalFrom acc rest
    else match decimalDigit c with
      | some d => decimalFrom (10 * acc + d) rest
      | none => none

/-- Hexadecimal digits after `acc`. DESIGN CHOICE: no underscore among them, and letters of either case (log entry 16). -/
def hexFrom (acc : Nat) : List Char → Option Nat
  | [] => some acc
  | c :: rest =>
    match hexDigit c with
    | some d => hexFrom (16 * acc + d) rest
    | none => none

/-- A decimal number (underscores allowed) or a `0x` hexadecimal one (R75). DESIGN CHOICE: it starts with a digit, leading
zeros are allowed, and the `x` is small (log entry 16). -/
def parseNumber : List Char → Option Nat
  | '0' :: 'x' :: c :: rest => hexFrom 0 (c :: rest)
  | c :: rest => (decimalDigit c).bind fun d => decimalFrom d rest
  | [] => none

/-- A drive given as a current, `2mA`, `4mA`, `6mA` or `8mA` (R76). DESIGN CHOICE: the digits before `mA` may be any spelling
`parseNumber` reads, so `0x2mA`, `02mA` and `2_mA` are `2mA` too (log entry 16); another current is refused when the line
is assembled. -/
def parseMilliamps (cs : List Char) : Option Nat :=
  match cs.reverse with
  | 'A' :: 'm' :: digits => parseNumber digits.reverse
  | _ => none

/-- A line from its mnemonic and its operand texts (R75, R76). DESIGN CHOICE: capitals only, and a wrong number of operands
is refused (log entry 16). -/
def parseOperands (mnemonic : List Char) (ops : List (List Char)) : Option AsmLine :=
  match mnemonic, ops with
  | ['I', 'N', 'I', 'T'], [[]] => some .init
  | ['S', 'E', 'T', 'F', 'R', 'E', 'Q'], [x, y] =>
    match parseNumber x, parseNumber y with
    | some ch, some f => some (.setfreq ch f)
    | _, _ => none
  | ['S', 'E', 'T', 'V', 'C', 'O'], [x] => (parseNumber x).map .setvco
  | ['S', 'E', 'T', 'R', 'D', 'I', 'V'], [x] => (parseNumber x).map .setrdiv
  | ['S', 'E', 'T', 'D', 'R', 'I', 'V', 'E'], [x, y] =>
    match parseNumber x, parseMilliamps y, parseNumber y with
    | some ch, some ma, _ => some (.setdriveMa ch ma)
    | some ch, none, some code => some (.setdrive ch code)
    | _, _, _ => none
  | ['C', 'O', 'M', 'P', 'U', 'T', 'E'], [x] => (parseNumber x).map .compute
  | ['D', 'I', 'S', 'A', 'B', 'L', 'E'], [x] => (parseNumber x).map .disable
  | ['S', 'E', 'T', 'F', 'R', 'E', 'Q', 'X'], [x, y, z] =>
    match parseNumber x, parseNumber y, parseNumber z with
    | some ch, some f, some r => some (.setfreqx ch f r)
    | _, _, _ => none
  | _, _ => none

/-- One line of text: the mnemonic, blanks, and the operands between commas (R75). DESIGN CHOICE: spaces and tabs are blanks,
and those at the ends of the line and around an operand are dropped (log entry 16). -/
def parseLine (text : List Char) : Option AsmLine :=
  let line := trimBlanks text
  let mnemonic := line.takeWhile fun c => !isBlank c
  parseOperands mnemonic ((splitCommas (line.dropWhile fun c => !isBlank c)).map trimBlanks)

end Sys2Proof.Machine
end

