-- ==== Sys2Proof/Safety.lean ====
section
/-! DEFINITION. The terms statements use: a failed run, the registers the engine may write, the closed arithmetic forms of
the divider and its bytes, the order of faults, and the engine's invariant. Nothing the machine runs is defined here. -/

namespace Sys2Proof.Machine

/-- A run that reaches this is a failed run (R152). -/
def Failed (s : State) : Prop := s.fault = true

/-- The register map of R44: the only chip registers the engine writes. -/
def mappedRegister (a : Nat) : Prop :=
  a = 3 ∨ (16 ≤ a ∧ a ≤ 18) ∨ (26 ≤ a ∧ a ≤ 33) ∨ (42 ≤ a ∧ a ≤ 65) ∨ a = 149 ∨ a = 177 ∨ a = 183

/-- A transaction R44 lists, with the value its table gives it; in a channel's block bit 7 of byte 2 is 0 (R70). -/
def inRegisterMap : Transaction → Prop
  | .w addr v =>
    (addr = 3#8 ∧ v.extractLsb' 3 5 = 0b11111#5) ∨
    ((addr = 16#8 ∨ addr = 17#8 ∨ addr = 18#8) ∧ v.extractLsb' 2 6 = 0b000011#6) ∨
    (addr = 149#8 ∧ v = 0x00#8) ∨ (addr = 177#8 ∧ v = 0x20#8) ∨ (addr = 183#8 ∧ v = Config.xtalLoadValue)
  | .b addr d =>
    (addr = 26#8 ∧ d = ⟨0x00#8, 0x01#8, 0x00#8, 0x0F#8, 0x80#8, 0x00#8, 0x00#8, 0x00#8⟩) ∨
    ((addr = 42#8 ∨ addr = 50#8 ∨ addr = 58#8) ∧ d.b2.getLsbD 7 = false)

/-- A transaction only INIT emits: registers 26 to 33, 149, 177 or 183 (R44, R120). -/
def initOnly : Transaction → Prop
  | .w addr _ => addr = 149#8 ∨ addr = 177#8 ∨ addr = 183#8
  | .b addr _ => addr = 26#8

/-- What the chip's registers have received from a list of transactions, in order, starting with nothing known. -/
def replay (ts : List Transaction) : Memory := ts.foldl deliver []

/-! Closed arithmetic forms, written apart from the engine's own step-by-step definitions. -/

/-- The bit length L of n: the position of its highest set bit plus 1 (R86). -/
def bitLength (n : Nat) : Nat := if n = 0 then 0 else Nat.log2 n + 1

/-- k = max(0, L − 20) (R86). -/
def closedShift (fout : Nat) : Nat := bitLength fout - 20

/-- (a, b, c) = (vco / fout, (vco mod fout) >> k, fout >> k) (R81, R86). -/
def closedDivider (vco fout : Nat) : Divider :=
  { a := vco / fout, b := (vco % fout) / 2 ^ closedShift fout, c := fout / 2 ^ closedShift fout }

/-- P1 + 512 = 128 × a + floor(128 × b / c) (R105). -/
def closedP1Plus512 (d : Divider) : Nat := 128 * d.a + 128 * d.b / d.c

/-- The eight bytes of the layout of R70, from P1, P2, P3 and rdiv as numbers. -/
def layoutBytes (p1 p2 p3 rdiv : Nat) : Block :=
  { b0 := BitVec.ofNat 8 (p3 / 256)
    b1 := BitVec.ofNat 8 p3
    b2 := BitVec.ofNat 8 (rdiv * 16 + p1 / 65536)
    b3 := BitVec.ofNat 8 (p1 / 256)
    b4 := BitVec.ofNat 8 p1
    b5 := BitVec.ofNat 8 (p3 / 65536 * 16 + p2 / 65536)
    b6 := BitVec.ofNat 8 (p2 / 256)
    b7 := BitVec.ofNat 8 p2 }

/-- The block SETFREQ sends: P1, P2 = (128 × b) mod c, P3 = c and RDIV (R105, R107, R108). -/
def closedBlock (vco fout rdiv : Nat) : Block :=
  let d := closedDivider vco fout
  layoutBytes (closedP1Plus512 d - 512) (128 * d.b % d.c) d.c rdiv

/-- fout is serviceable (R102). -/
abbrev Serviceable (fout : Nat) : Prop := 500000 ≤ fout ∧ fout ≤ 109000000

/-- P1 lies in 0 to 2^20 − 1 (R106). -/
abbrev FitsP1 (vco fout : Nat) : Prop :=
  512 ≤ closedP1Plus512 (closedDivider vco fout) ∧ closedP1Plus512 (closedDivider vco fout) < 512 + 2 ^ 20

/-- The word of a FAULT response with this code (R68). -/
def faultWord (code : BitVec 4) : RespWord := 0b10#2 ++ 0#26 ++ code ++ 0#96

/-- The word of a RESULT response (R68). -/
def resultWord (a b c : Nat) : RespWord :=
  0b01#2 ++ 0#30 ++ BitVec.ofNat 32 a ++ BitVec.ofNat 32 b ++ BitVec.ofNat 32 c

/-- The state a fault with this code leaves: FAULT, FAULT_CODE, the response, nothing else (R150, R155). -/
def State.faulted (s : State) (code : BitVec 4) : State :=
  { s with fault := true, faultCode := code, trace := s.trace ++ [.response (faultWord code)] }

/-! The faults of a command word by its bits alone, in the order of R154. -/

/-- OP, RSVD, CH and DATA of a word as numbers (R62). -/
def wordOp (w : CmdWord) : Nat := w.toNat / 2 ^ 60
def wordRsvd (w : CmdWord) : Nat := w.toNat / 2 ^ 34 % 2 ^ 26
def wordCh (w : CmdWord) : Nat := w.toNat / 2 ^ 32 % 4
def wordData (w : CmdWord) : Nat := w.toNat % 2 ^ 32

/-- OP is 0x0 or 0x7 to 0xF (R65). -/
abbrev ReservedOpcode (w : CmdWord) : Prop := wordOp w = 0 ∨ 7 ≤ wordOp w

/-- The word sets a bit its command does not use (R66). -/
abbrev ReservedBitsSet (w : CmdWord) : Prop :=
  wordRsvd w ≠ 0 ∨
  ((wordOp w = 1 ∨ wordOp w = 3 ∨ wordOp w = 4 ∨ wordOp w = 6) ∧ wordCh w ≠ 0) ∨
  (wordOp w = 1 ∧ wordData w ≠ 0) ∨
  (wordOp w = 4 ∧ 8 ≤ wordData w) ∨
  (wordOp w = 5 ∧ 4 ≤ wordData w)

/-- Some channel is enabled: one of EN_MASK bits 2..0 is 0 (R132). -/
abbrev SomeEnabled (s : State) : Prop :=
  s.enMask.getLsbD 0 = false ∨ s.enMask.getLsbD 1 = false ∨ s.enMask.getLsbD 2 = false

/-- The number of the fault a word raises in a state: the first that applies in the order of R154, none where none does. -/
def firstFault (w : CmdWord) (s : State) : Option (BitVec 4) :=
  if ReservedOpcode w then some 1#4
  else if ReservedBitsSet w then some 2#4
  else if (wordOp w = 2 ∨ wordOp w = 5) ∧ wordCh w = 3 then some 3#4
  else if wordOp w = 2 ∧ s.initDone = false then some 4#4
  else if wordOp w = 1 ∧ s.initDone = true then some 5#4
  else if wordOp w = 6 ∧ ¬Serviceable (wordData w) then some 6#4
  else if wordOp w = 2 ∧ Serviceable (wordData w) ∧ ¬FitsP1 s.vcoRef.toNat (wordData w) then some 7#4
  else if wordOp w = 3 ∧ wordData w = 0 ∧ SomeEnabled s then some 8#4
  else none

/-- What holds of the engine between commands. The clauses on `chip` and `trace` speak of the model's own records, which a
reset keeps (log entries 6, 7 and 8). -/
structure EngineInv (s : State) : Prop where
  /-- EN_MASK's reserved bits 7..3 read 1 (R27). -/
  reservedOnes : s.enMask.extractLsb' 3 5 = 0b11111#5
  /-- VCO_REF is greater than 0 whenever any channel is enabled (R24). -/
  vcoNonzero : SomeEnabled s → s.vcoRef ≠ 0#32
  /-- A channel is enabled only after INIT (R29, R101). -/
  enabledAfterInit : SomeEnabled s → s.initDone = true
  /-- FAULT_CODE is 0 exactly when FAULT is 0, and at most 8 (R22, R151). -/
  faultCodeNamed : (s.faultCode = 0#4 ↔ s.fault = false) ∧ s.faultCode.toNat ≤ 8
  /-- The chip's register space is in its canonical form. -/
  chipCanonical : Memory.wf s.chip = true
  /-- Only registers of the map have received anything (R44, R45). -/
  chipMapped : ∀ a, s.chipByte a ≠ none → mappedRegister a
  /-- The chip's registers have received exactly the transactions of the transcript, in order (R43, R51). -/
  chipReplayed : s.chip = replay (transactionsOf s.trace)
  /-- Once INIT has run, register 3 has last received EN_MASK (R27). -/
  maskDelivered : s.initDone = true → s.chipByte 3 = some s.enMask

end Sys2Proof.Machine
end

