-- ==== Sys2Proof/Certificates/Slice0/Obligations.lean ====
section
/-! DEFINITION. The statements for the provers. A channel c of the spec is written as a command operand by
`BitVec.ofNat 2 (channelIndex c)`, which is 0, 1 or 2; the operand 3 has statements of its own. -/

open Sys2Proof Sys2Proof.Machine

/-! Encoding -/

/-- R77: the seven worked encodings decode to the commands they stand for. -/
def Obligations.WorkedEncodingsDecode : Prop :=
  decode 0x1000000000000000#64 = .instr .init ∧
  decode 0x20000000006D1A2B#64 = .instr (.setfreq 0#2 7150123#32) ∧
  decode 0x20000002067F3540#64 = .instr (.setfreq 2#2 109000000#32) ∧
  decode 0x30000000342770C0#64 = .instr (.setvco 875000000#32) ∧
  decode 0x4000000000000003#64 = .instr (.setrdiv 3#3) ∧
  decode 0x5000000200000003#64 = .instr (.setdrive 2#2 3#2) ∧
  decode 0x60000000006D1A2B#64 = .instr (.compute 7150123#32)

/-- R62, R63, R64: every instruction's word decodes back to it, with every operand at every value of its field. -/
def Obligations.DecodeUndoesEncode : Prop :=
  ∀ i : Instr, decode (encode i) = .instr i

/-- R62, R66: a word that decodes to an instruction is that instruction's word, so the decoder ignores no bit. -/
def Obligations.EncodeUndoesDecode : Prop :=
  ∀ (w : CmdWord) (i : Instr), decode w = .instr i → encode i = w

/-- R63: each word's operands are the fields of the word, read as numbers. -/
def Obligations.OperandsAreTheFields : Prop :=
  ∀ (w : CmdWord) (i : Instr), decode w = .instr i →
    match i with
    | .init => wordOp w = 1
    | .setfreq ch fout => wordOp w = 2 ∧ ch.toNat = wordCh w ∧ fout.toNat = wordData w
    | .setvco vco => wordOp w = 3 ∧ vco.toNat = wordData w
    | .setrdiv r => wordOp w = 4 ∧ r.toNat = wordData w % 8
    | .setdrive ch code => wordOp w = 5 ∧ ch.toNat = wordCh w ∧ code.toNat = wordData w % 4
    | .compute fout => wordOp w = 6 ∧ fout.toNat = wordData w

/-- R75, R76: a line assembles exactly when its operands fit, and to the words of the commands it stands for; a current
fits when it is 2, 4, 6 or 8 mA. -/
def Obligations.AssembledLinesFit : Prop :=
  ∀ ch fout r code ma : Nat,
    assembleWords .init = some [0x1000000000000000#64] ∧
    ((ch ≤ 3 ∧ fout < 2 ^ 32 → assembleWords (.setfreq ch fout) = some [BitVec.ofNat 64 (2 * 2 ^ 60 + ch * 2 ^ 32 + fout)]) ∧
     (¬(ch ≤ 3 ∧ fout < 2 ^ 32) → assembleWords (.setfreq ch fout) = none)) ∧
    ((fout < 2 ^ 32 → assembleWords (.setvco fout) = some [BitVec.ofNat 64 (3 * 2 ^ 60 + fout)]) ∧
     (¬fout < 2 ^ 32 → assembleWords (.setvco fout) = none)) ∧
    ((r ≤ 7 → assembleWords (.setrdiv r) = some [BitVec.ofNat 64 (4 * 2 ^ 60 + r)]) ∧
     (¬r ≤ 7 → assembleWords (.setrdiv r) = none)) ∧
    ((ch ≤ 3 ∧ code ≤ 3 → assembleWords (.setdrive ch code) = some [BitVec.ofNat 64 (5 * 2 ^ 60 + ch * 2 ^ 32 + code)]) ∧
     (¬(ch ≤ 3 ∧ code ≤ 3) → assembleWords (.setdrive ch code) = none)) ∧
    ((fout < 2 ^ 32 → assembleWords (.compute fout) = some [BitVec.ofNat 64 (6 * 2 ^ 60 + fout)]) ∧
     (¬fout < 2 ^ 32 → assembleWords (.compute fout) = none)) ∧
    assembleWords (.disable ch) = assembleWords (.setfreq ch 0) ∧
    ((code ≤ 3 → assembleWords (.setdriveMa ch (2 * code + 2)) = assembleWords (.setdrive ch code)) ∧
     (¬(ma = 2 ∨ ma = 4 ∨ ma = 6 ∨ ma = 8) → assembleWords (.setdriveMa ch ma) = none)) ∧
    ((ch ≤ 3 ∧ fout < 2 ^ 32 ∧ r ≤ 7 → assembleWords (.setfreqx ch fout r) =
       some [BitVec.ofNat 64 (4 * 2 ^ 60 + r), BitVec.ofNat 64 (2 * 2 ^ 60 + ch * 2 ^ 32 + fout),
         0x4000000000000000#64]) ∧
     (¬(ch ≤ 3 ∧ fout < 2 ^ 32 ∧ r ≤ 7) → assembleWords (.setfreqx ch fout r) = none))

/-! The step -/

/-- R61, R62: with FAULT = 0, a word on the command port that decodes runs as exactly the instruction it decodes to.
That the host's inputs stand in a list is the model's choice (log entry 2). -/
def Obligations.StepRunsDecodedInstruction : Prop :=
  ∀ (s : State) (w : CmdWord) (rest : List HostInput) (i : Instr),
    s.inputs = .command w :: rest → s.fault = false → decode w = .instr i →
    step s = exec i { s with inputs := rest }

/-- The host's table word is the next command the engine takes: the model's choice of where a command word comes from
(log entry 2). -/
def Obligations.FetchedTableWordRuns : Prop :=
  ∀ (s : State) (w : Nat) (i : Instr),
    s.fault = false → decodeTableWord 64 w = some i → step (s.withFetchWord 64 w) = exec i s

/-- R173: with nothing from the host the engine waits, and nothing changes. That waiting is a step that changes nothing is
the model's choice (log entry 4). -/
def Obligations.EngineWaitsForCommand : Prop :=
  ∀ s : State, s.inputs = [] → step s = .next s

/-- R65: an accepted word with a reserved opcode raises ILLEGAL_OPCODE and performs nothing of the command. -/
def Obligations.ReservedOpcodeFaults : Prop :=
  ∀ (s : State) (w : CmdWord), (w.toNat / 2 ^ 60 = 0 ∨ (7 ≤ w.toNat / 2 ^ 60 ∧ w.toNat / 2 ^ 60 ≤ 15)) →
    runWord w s = .next (s.faulted 1#4)

/-- R66: an accepted word with a set reserved bit, or a nonzero field its command does not use, raises RESERVED_BITS. -/
def Obligations.ReservedBitsFault : Prop :=
  ∀ (s : State) (w : CmdWord), (1 ≤ wordOp w ∧ wordOp w ≤ 6) →
    (wordRsvd w ≠ 0 ∨
      ((wordOp w = 1 ∨ wordOp w = 3 ∨ wordOp w = 4 ∨ wordOp w = 6) ∧ wordCh w ≠ 0) ∨
      (wordOp w = 1 ∧ wordData w ≠ 0) ∨
      (wordOp w = 4 ∧ wordData w / 8 ≠ 0) ∨
      (wordOp w = 5 ∧ wordData w / 4 ≠ 0)) →
    runWord w s = .next (s.faulted 2#4)

/-- R67: an accepted SETFREQ or SETDRIVE word with CH = 3 and no reserved bit set raises ILLEGAL_CHANNEL, initialised or
not; and so does the instruction with the channel operand 3. -/
def Obligations.ChannelThreeFaults : Prop :=
  (∀ (s : State) (w : CmdWord), (wordOp w = 2 ∨ wordOp w = 5) → wordCh w = 3 → ¬ReservedBitsSet w →
    runWord w s = .next (s.faulted 3#4)) ∧
  (∀ (s : State) (fout : Freq) (code : BitVec 2),
    exec (.setfreq 3#2 fout) s = .next (s.faulted 3#4) ∧ exec (.setdrive 3#2 code) s = .next (s.faulted 3#4))

/-- R154: of the faults that apply to a command, the engine reports the first in the spec's order; where none applies it
reports none. -/
def Obligations.FirstApplicableFaultReported : Prop :=
  ∀ (s t : State) (w : CmdWord) (rest : List HostInput),
    s.inputs = .command w :: rest → s.fault = false → step s = .next t →
    match firstFault w s with
    | some code => t = State.faulted { s with inputs := rest } code
    | none => t.fault = false ∧ t.faultCode = s.faultCode

/-- R155: a faulting command changes no engine register other than FAULT and FAULT_CODE and emits no transaction. -/
def Obligations.FaultingCommandChangesNothingElse : Prop :=
  ∀ (i : Instr) (s t : State), s.fault = false → exec i s = .next t → t.fault = true →
    ∃ code : BitVec 4, 1 ≤ code.toNat ∧ code.toNat ≤ 8 ∧ t = State.faulted s code

/-- R152: while FAULT = 1 a command offered changes nothing, and only reset clears FAULT. That the offer
lapses is the model's choice (log entry 3). -/
def Obligations.StoppedUntilReset : Prop :=
  (∀ (s : State) (w : CmdWord) (rest : List HostInput), s.fault = true → s.inputs = .command w :: rest →
    ∃ rest' : List HostInput, step s = .next { s with inputs := rest' } ∧
      status { s with inputs := rest' } = status s) ∧
  (∀ s t : State, s.fault = true → step s = .next t → t.fault = false → ∃ rest, s.inputs = .reset :: rest)

/-- R188, R189: a command finishes in a bounded number of steps; here, whatever the state, one step answers a next state.
That this holds where nothing is offered, where an offer lapses and where the engine faults is the model's choice (log
entries 4, 3 and 5). -/
def Obligations.EveryStepCompletes : Prop :=
  ∀ s : State, ∃ t : State, step s = .next t

/-- R61, R189: an accepted command emits at most five transactions, all of them before its one response, and the chip
has received them in order (R51, R52). The trace and the chip's image are the model's record (log entries 7 and 8). -/
def Obligations.TransactionsThenOneResponse : Prop :=
  ∀ (i : Instr) (s t : State), exec i s = .next t →
    ∃ (ts : List Transaction) (r : RespWord), ts.length ≤ 5 ∧
      t.trace = s.trace ++ ts.map PortEvent.write ++ [.response r] ∧
      t.chip = ts.foldl deliver s.chip ∧
      r.extractLsb' 126 2 ≠ 3#2

/-! Reset -/

/-- R170: the registers' values right after power-on, and after the reset event in any state. -/
def Obligations.ResetStateValues : Prop :=
  ∀ t : State, (t = State.reset ∨ ∃ s : State, t = resetEvent s) →
    t.vcoRef = 875000000#32 ∧ t.rdiv = 0#3 ∧ t.drive0 = 1#2 ∧ t.drive1 = 1#2 ∧ t.drive2 = 1#2 ∧
    t.enMask = 0xFF#8 ∧ t.initDone = false ∧ t.fault = false ∧ t.faultCode = 0#4

/-- R170, R171: the reset event sets every engine register, emits no transaction and does not touch the chip.
That it comes between commands, in the list of inputs, is the model's choice (log entry 6). -/
def Obligations.ResetEventSetsRegisters : Prop :=
  ∀ (s : State) (rest : List HostInput), s.inputs = .reset :: rest →
    step s = .next
      { vcoRef := 875000000#32, rdiv := 0#3, drive0 := 1#2, drive1 := 1#2, drive2 := 1#2, enMask := 0xFF#8,
        initDone := false, fault := false, faultCode := 0#4, inputs := rest, trace := s.trace, chip := s.chip }

/-! Ports -/

/-- R68: the fields of the response words; every other bit is 0. -/
def Obligations.ResponseWordFields : Prop :=
  responseWord .ok = 0#128 ∧
  (∀ a b c : BitVec 32, (responseWord (.result a b c)).toNat =
    1 * 2 ^ 126 + a.toNat * 2 ^ 64 + b.toNat * 2 ^ 32 + c.toNat) ∧
  (∀ code : FaultCode, (responseWord (.fault code)).toNat = 2 * 2 ^ 126 + (faultCodeBits code).toNat * 2 ^ 96) ∧
  faultCodeBits .illegalOpcode = 1#4 ∧ faultCodeBits .reservedBits = 2#4 ∧ faultCodeBits .illegalChannel = 3#4 ∧
  faultCodeBits .notInitialised = 4#4 ∧ faultCodeBits .reinit = 5#4 ∧ faultCodeBits .computeOutOfRange = 6#4 ∧
  faultCodeBits .dividerOutOfField = 7#4 ∧ faultCodeBits .vcoZeroWhileEnabled = 8#4

/-- R60: the status output is FAULT in bit 4 and FAULT_CODE in bits 3..0. -/
def Obligations.StatusShowsFault : Prop :=
  ∀ s : State, (status s).toNat = (if s.fault = true then 16 else 0) + s.faultCode.toNat

/-- R43: a block has the effect of the eight single writes in ascending address order. -/
def Obligations.BlockIsEightWrites : Prop :=
  ∀ (m : Memory) (a : Nat) (d : Block), a + 7 < 256 →
    deliver m (.b (BitVec.ofNat 8 a) d) =
      [Transaction.w (BitVec.ofNat 8 a) d.b0, .w (BitVec.ofNat 8 (a + 1)) d.b1, .w (BitVec.ofNat 8 (a + 2)) d.b2,
       .w (BitVec.ofNat 8 (a + 3)) d.b3, .w (BitVec.ofNat 8 (a + 4)) d.b4, .w (BitVec.ofNat 8 (a + 5)) d.b5,
       .w (BitVec.ofNat 8 (a + 6)) d.b6, .w (BitVec.ofNat 8 (a + 7)) d.b7].foldl deliver m

/-! The divider calculator -/

/-- R86: the normalization loop equals one shift by k = max(0, L − 20), which leaves c below 2^20. -/
def Obligations.NormalizationIsOneShift : Prop :=
  ∀ vco fout : Freq, fout ≠ 0#32 →
    computeDivider vco fout = closedDivider vco.toNat fout.toNat ∧
    closedShift fout.toNat ≤ 12 ∧ (closedShift fout.toNat = 0 ↔ fout.toNat < 2 ^ 20) ∧
    (computeDivider vco fout).c < 2 ^ 20 ∧
    (fout.toNat ≤ 109000000 → closedShift fout.toNat ≤ 7)

/-- R85, R105, R107: for a serviceable fout, 0 ≤ b ≤ c, c lies in 500_000 to 2^20 − 1, q ≤ 128, q = 128 exactly when
b = c, and 128 × b − q × c is (128 × b) mod c. -/
def Obligations.DividerRanges : Prop :=
  ∀ vco fout : Freq, Serviceable fout.toNat →
    (computeDivider vco fout).b ≤ (computeDivider vco fout).c ∧
    500000 ≤ (computeDivider vco fout).c ∧ (computeDivider vco fout).c ≤ 1048575 ∧
    (computeDivider vco fout).a ≤ 8589 ∧
    quotient128 (computeDivider vco fout) ≤ 128 ∧
    (quotient128 (computeDivider vco fout) = 128 ↔ (computeDivider vco fout).b = (computeDivider vco fout).c) ∧
    128 * (computeDivider vco fout).b - quotient128 (computeDivider vco fout) * (computeDivider vco fout).c =
      128 * (computeDivider vco fout).b % (computeDivider vco fout).c

/-- R89: with no shift the divide ratio is exact: vco / (a + b/c) = fout. -/
def Obligations.UnshiftedDividerIsExact : Prop :=
  ∀ vco fout : Freq, 0 < fout.toNat → fout.toNat < 2 ^ 20 → 0 < vco.toNat →
    (vco.toNat : Rat) /
      ((computeDivider vco fout).a + (computeDivider vco fout).b / (computeDivider vco fout).c : Rat) = fout.toNat

/-- R85: b = c does occur, at the first and the last of the values the spec names. -/
def Obligations.NumeratorCanEqualDenominator : Prop :=
  computeDivider 875000000#32 2897351#32 = { a := 301, b := 724337, c := 724337 } ∧
  computeDivider 875000000#32 97222232#32 = { a := 8, b := 759548, c := 759548 }

/-- R91, R106: at the nominal VCO frequency, 8 ≤ a ≤ 1750 and P1 runs from 515 to 223_488. -/
def Obligations.NominalDividerFits : Prop :=
  ∀ fout : Freq, Serviceable fout.toNat →
    8 ≤ (computeDivider 875000000#32 fout).a ∧ (computeDivider 875000000#32 fout).a ≤ 1750 ∧
    515 ≤ rawP1 (computeDivider 875000000#32 fout) ∧ rawP1 (computeDivider 875000000#32 fout) ≤ 223488

/-- R117, R118: the block unpacks to the fields that were packed; (P1 + 512) × P3 + P2 = 128 × (a × c + b); and (a, b, c)
comes back exactly when b < c, as (a + 1, 0, c) when b = c. -/
def Obligations.BlockUnpacksToDivider : Prop :=
  ∀ (vco fout : Freq) (f : Packed) (r : BitVec 3), Serviceable fout.toNat →
    packFields (computeDivider vco fout) = some f →
    unpackP1 (multisynthBlock f r) = f.p1 ∧ unpackP2 (multisynthBlock f r) = f.p2 ∧
    unpackP3 (multisynthBlock f r) = f.p3 ∧ unpackRdiv (multisynthBlock f r) = r ∧
    (multisynthBlock f r).b2.getLsbD 7 = false ∧
    (f.p1.toNat + 512) * f.p3.toNat + f.p2.toNat =
      128 * ((computeDivider vco fout).a * (computeDivider vco fout).c + (computeDivider vco fout).b) ∧
    ((computeDivider vco fout).b < (computeDivider vco fout).c →
      unpackDivider (multisynthBlock f r) = computeDivider vco fout) ∧
    ((computeDivider vco fout).b = (computeDivider vco fout).c →
      unpackDivider (multisynthBlock f r) =
        { a := (computeDivider vco fout).a + 1, b := 0, c := (computeDivider vco fout).c })

/-! COMPUTE -/

/-- R87, R88: COMPUTE with a serviceable fout answers RESULT(a, b, c) and changes nothing. -/
def Obligations.ComputeAnswersResult : Prop :=
  ∀ (s : State) (fout : Freq), Serviceable fout.toNat →
    exec (.compute fout) s = .next { s with
      trace := s.trace ++ [.response (resultWord (closedDivider s.vcoRef.toNat fout.toNat).a
        (closedDivider s.vcoRef.toNat fout.toNat).b (closedDivider s.vcoRef.toNat fout.toNat).c)] }

/-- R87: COMPUTE outside FMIN..FMAX raises COMPUTE_OUT_OF_RANGE. -/
def Obligations.ComputeOutOfRangeFaults : Prop :=
  ∀ (s : State) (fout : Freq), (fout.toNat < 500000 ∨ 109000000 < fout.toNat) →
    exec (.compute fout) s = .next (s.faulted 6#4)

/-! SETFREQ -/

/-- R100, R104 to R115: a serviceable SETFREQ whose P1 fits emits the channel's block, its control byte and the mask, in
this order, clears the channel's disable bit, answers OK, and changes nothing else. The chip receives those bytes at
registers 42 + 8 × ch to 49 + 8 × ch, 16 + ch and 3, and no other (the image of log entry 7). -/
def Obligations.SetfreqProgramsChannel : Prop :=
  ∀ (c : Channel) (fout : Freq) (s : State),
    s.initDone = true → Serviceable fout.toNat → FitsP1 s.vcoRef.toNat fout.toNat →
    ∃ m : Memory,
      exec (.setfreq (BitVec.ofNat 2 (channelIndex c)) fout) s = .next { s with
        enMask := s.enMask &&& ~~~(1#8 <<< channelIndex c)
        trace := s.trace ++
          [.write (.b (BitVec.ofNat 8 (42 + 8 * channelIndex c))
             (closedBlock s.vcoRef.toNat fout.toNat s.rdiv.toNat)),
           .write (.w (BitVec.ofNat 8 (16 + channelIndex c)) (BitVec.ofNat 8 (12 + (readDrive c s).toNat))),
           .write (.w 3#8 (s.enMask &&& ~~~(1#8 <<< channelIndex c))),
           .response 0#128]
        chip := m } ∧
      ∀ a : Nat, Memory.read m a =
        if 42 + 8 * channelIndex c ≤ a ∧ a ≤ 49 + 8 * channelIndex c then
          some ((closedBlock s.vcoRef.toNat fout.toNat s.rdiv.toNat).byteAt (a - (42 + 8 * channelIndex c)))
        else if a = 16 + channelIndex c then some (BitVec.ofNat 8 (12 + (readDrive c s).toNat))
        else if a = 3 then some (s.enMask &&& ~~~(1#8 <<< channelIndex c))
        else Memory.read s.chip a

/-- R103: an unserviceable SETFREQ shuts the channel off silently: its mask bit is set, only the mask is written, the
answer is OK. The chip's bytes are read in the image of log entry 7. -/
def Obligations.SetfreqOutOfRangeDisables : Prop :=
  ∀ (c : Channel) (fout : Freq) (s : State),
    s.initDone = true → (fout.toNat < 500000 ∨ 109000000 < fout.toNat) →
    ∃ m : Memory,
      exec (.setfreq (BitVec.ofNat 2 (channelIndex c)) fout) s = .next { s with
        enMask := s.enMask ||| (1#8 <<< channelIndex c)
        trace := s.trace ++ [.write (.w 3#8 (s.enMask ||| (1#8 <<< channelIndex c))), .response 0#128]
        chip := m } ∧
      ∀ a : Nat, Memory.read m a =
        if a = 3 then some (s.enMask ||| (1#8 <<< channelIndex c)) else Memory.read s.chip a

/-- R101: SETFREQ before INIT raises NOT_INITIALISED and does nothing else. -/
def Obligations.SetfreqBeforeInitFaults : Prop :=
  ∀ (c : Channel) (fout : Freq) (s : State), s.initDone = false →
    exec (.setfreq (BitVec.ofNat 2 (channelIndex c)) fout) s = .next (s.faulted 4#4)

/-- R106: a serviceable SETFREQ whose P1 would not lie in 0 to 2^20 − 1 raises DIVIDER_OUT_OF_FIELD before writing
anything. -/
def Obligations.SetfreqOutOfFieldFaults : Prop :=
  ∀ (c : Channel) (fout : Freq) (s : State),
    s.initDone = true → Serviceable fout.toNat → ¬FitsP1 s.vcoRef.toNat fout.toNat →
    exec (.setfreq (BitVec.ofNat 2 (channelIndex c)) fout) s = .next (s.faulted 7#4)

/-- R106: at the nominal VCO frequency no SETFREQ of an existing channel faults after INIT. -/
def Obligations.NominalSetfreqNeverFaults : Prop :=
  ∀ (c : Channel) (fout : Freq) (s : State), s.initDone = true → s.vcoRef = 875000000#32 →
    ∃ t : State, exec (.setfreq (BitVec.ofNat 2 (channelIndex c)) fout) s = .next t ∧
      t.fault = s.fault ∧ t.faultCode = s.faultCode

/-- R115: without a fault, an in-range SETFREQ emits exactly its block, its control byte and the mask, in this order, an
out-of-range one exactly the mask; the mask written is EN_MASK as the command leaves it. -/
def Obligations.SetfreqEmissionOrder : Prop :=
  ∀ (c : Channel) (fout : Freq) (s t : State), s.fault = false →
    exec (.setfreq (BitVec.ofNat 2 (channelIndex c)) fout) s = .next t → t.fault = false →
    (Serviceable fout.toNat → ∃ (d : Block) (v : Byte), transactionsOf t.trace = transactionsOf s.trace ++
      [.b (BitVec.ofNat 8 (42 + 8 * channelIndex c)) d, .w (BitVec.ofNat 8 (16 + channelIndex c)) v, .w 3#8 t.enMask]) ∧
    (¬Serviceable fout.toNat → transactionsOf t.trace = transactionsOf s.trace ++ [.w 3#8 t.enMask])

/-- R46, R100, R114, the frame of SETFREQ in every form: no register but EN_MASK's bit of the channel (and, in a fault,
FAULT and FAULT_CODE), and no chip register but the channel's own and register 3. -/
def Obligations.SetfreqFrame : Prop :=
  ∀ (ch : BitVec 2) (fout : Freq) (s t : State), exec (.setfreq ch fout) s = .next t →
    t.vcoRef = s.vcoRef ∧ t.rdiv = s.rdiv ∧ t.drive0 = s.drive0 ∧ t.drive1 = s.drive1 ∧ t.drive2 = s.drive2 ∧
    t.initDone = s.initDone ∧ t.inputs = s.inputs ∧
    (∀ n : Nat, n ≠ ch.toNat → t.enMask.getLsbD n = s.enMask.getLsbD n) ∧
    (∀ c : Channel, channelOf ch = some c → ∀ a : Nat, ¬((msAddr c).toNat ≤ a ∧ a ≤ (msAddr c).toNat + 7) →
      a ≠ (ctrlAddr c).toNat → a ≠ oeAddr.toNat → t.chipByte a = s.chipByte a) ∧
    (channelOf ch = none → ∀ a : Nat, t.chipByte a = s.chipByte a)

/-- R46: a SETFREQ for one channel leaves another channel's multisynth, control register, drive and mask bit alone. -/
def Obligations.ChannelsAreIsolated : Prop :=
  ∀ (c d : Channel) (fout : Freq) (s t : State), c ≠ d →
    exec (.setfreq (BitVec.ofNat 2 (channelIndex c)) fout) s = .next t →
    isEnabled d t.enMask = isEnabled d s.enMask ∧ readDrive d t = readDrive d s ∧
    t.chipByte (16 + channelIndex d) = s.chipByte (16 + channelIndex d) ∧
    ∀ n : Nat, n < 8 → t.chipByte (42 + 8 * channelIndex d + n) = s.chipByte (42 + 8 * channelIndex d + n)

/-- R119: two successive identical SETFREQ emit identical transactions, and the second changes no register and no chip
byte. -/
def Obligations.SetfreqIsIdempotent : Prop :=
  ∀ (c : Channel) (fout : Freq) (s t u : State),
    exec (.setfreq (BitVec.ofNat 2 (channelIndex c)) fout) s = .next t →
    exec (.setfreq (BitVec.ofNat 2 (channelIndex c)) fout) t = .next u →
    ∃ es : List PortEvent, t.trace = s.trace ++ es ∧ u = { t with trace := t.trace ++ es, chip := u.chip } ∧
      ∀ a : Nat, u.chipByte a = t.chipByte a

/-- R76, R184: SETFREQX, a SETRDIV, a SETFREQ and a SETRDIV 0, packs its exponent into the channel's block and leaves
RDIV at 0. -/
def Obligations.SetfreqxPacksItsExponent : Prop :=
  ∀ (c : Channel) (fout : Freq) (r : BitVec 3) (s : State),
    s.initDone = true → Serviceable fout.toNat → FitsP1 s.vcoRef.toNat fout.toNat →
    ∃ t u v : State, exec (.setrdiv r) s = .next t ∧
      exec (.setfreq (BitVec.ofNat 2 (channelIndex c)) fout) t = .next u ∧
      exec (.setrdiv 0#3) u = .next v ∧ v.rdiv = 0#3 ∧
      ∃ b : Byte, v.chipByte (42 + 8 * channelIndex c + 2) = some b ∧ b.extractLsb' 4 3 = r

/-- R116: SETFREQ with fout in range enables its channel, out of range (including 0) disables it, INIT disables every
channel, and no other command changes a channel's state; a faulting command changes none. -/
def Obligations.ChannelStateTransitions : Prop :=
  ∀ (i : Instr) (s t : State), s.fault = false → exec i s = .next t →
    (t.fault = true → t.enMask = s.enMask) ∧
    (t.fault = false →
      match i with
      | .init => ∀ d : Channel, isEnabled d t.enMask = false
      | .setfreq ch fout => ∃ c : Channel, ch.toNat = channelIndex c ∧
          (isEnabled c t.enMask = true ↔ Serviceable fout.toNat) ∧
          ∀ d : Channel, d ≠ c → isEnabled d t.enMask = isEnabled d s.enMask
      | _ => t.enMask = s.enMask)

/-! INIT -/

/-- R120 to R124: INIT emits its five writes in order, sets EN_MASK to 0xFF and INIT_DONE to 1, and answers OK; nothing
else changes, and the chip receives exactly those bytes (the image of log entry 7). -/
def Obligations.InitWritesSequence : Prop :=
  ∀ s : State, s.initDone = false →
    ∃ m : Memory,
      exec .init s = .next { s with
        enMask := 0xFF#8
        initDone := true
        trace := s.trace ++
          [.write (.w 149#8 0x00#8), .write (.w 3#8 0xFF#8), .write (.w 183#8 Config.xtalLoadValue),
           .write (.b 26#8 ⟨0x00#8, 0x01#8, 0x00#8, 0x0F#8, 0x80#8, 0x00#8, 0x00#8, 0x00#8⟩),
           .write (.w 177#8 0x20#8), .response 0#128]
        chip := m } ∧
      ∀ a : Nat, Memory.read m a =
        if 26 ≤ a ∧ a ≤ 33 then
          some (Block.byteAt ⟨0x00#8, 0x01#8, 0x00#8, 0x0F#8, 0x80#8, 0x00#8, 0x00#8, 0x00#8⟩ (a - 26))
        else if a = 149 then some 0x00#8
        else if a = 3 then some 0xFF#8
        else if a = 183 then some Config.xtalLoadValue
        else if a = 177 then some 0x20#8
        else Memory.read s.chip a

/-- R125: a second INIT raises REINIT and writes nothing. -/
def Obligations.SecondInitFaults : Prop :=
  ∀ s : State, s.initDone = true → exec .init s = .next (s.faulted 5#4)

/-- R122: the VCO A block is the divider (35, 0, 1) packed by the output multisynths' formulas and layout, exponent 0. -/
def Obligations.VcoBlockIsPackedDivider : Prop :=
  packFields { a := 35, b := 0, c := 1 } = some { p1 := 3968#20, p2 := 0#20, p3 := 1#20 } ∧
  multisynthBlock { p1 := 3968#20, p2 := 0#20, p3 := 1#20 } 0#3 = pllaBlock

/-- R123, R44: after INIT, INIT_DONE stays 1 until reset and the registers only INIT writes are not written again. -/
def Obligations.InitRegistersWrittenOnce : Prop :=
  ∀ s t : State, s.initDone = true → step s = .next t → (∀ rest, s.inputs ≠ .reset :: rest) →
    t.initDone = true ∧
    ∀ a : Nat, ((26 ≤ a ∧ a ≤ 33) ∨ a = 149 ∨ a = 177 ∨ a = 183) → t.chipByte a = s.chipByte a

/-! Configuration commands -/

/-- R131: SETVCO sets VCO_REF and answers OK; nothing else changes. -/
def Obligations.SetvcoSetsReference : Prop :=
  ∀ (vco : Freq) (s : State), ¬(vco = 0#32 ∧ SomeEnabled s) →
    exec (.setvco vco) s = .next { s with vcoRef := vco, trace := s.trace ++ [.response 0#128] }

/-- R132: SETVCO 0 while a channel is enabled raises VCO_ZERO_WHILE_ENABLED and leaves VCO_REF unchanged. -/
def Obligations.SetvcoZeroWhileEnabledFaults : Prop :=
  ∀ s : State, SomeEnabled s → exec (.setvco 0#32) s = .next (s.faulted 8#4)

/-- R133: SETRDIV sets RDIV and answers OK; nothing else changes. -/
def Obligations.SetrdivSetsExponent : Prop :=
  ∀ (r : BitVec 3) (s : State),
    exec (.setrdiv r) s = .next { s with rdiv := r, trace := s.trace ++ [.response 0#128] }

/-- R134: SETDRIVE sets the channel's drive code and answers OK; the other two codes and everything else stay. -/
def Obligations.SetdriveSetsCode : Prop :=
  ∀ (code : BitVec 2) (s : State),
    exec (.setdrive 0#2 code) s = .next { s with drive0 := code, trace := s.trace ++ [.response 0#128] } ∧
    exec (.setdrive 1#2 code) s = .next { s with drive1 := code, trace := s.trace ++ [.response 0#128] } ∧
    exec (.setdrive 2#2 code) s = .next { s with drive2 := code, trace := s.trace ++ [.response 0#128] }

/-- R130, the frame of SETVCO, SETRDIV, SETDRIVE and COMPUTE: no transaction, no chip byte, no mask bit, INIT_DONE kept;
and none of them needs INIT_DONE. -/
def Obligations.ConfigurationEmitsNothing : Prop :=
  ∀ (i : Instr) (s t : State), i ≠ .init → (∀ ch fout, i ≠ .setfreq ch fout) → exec i s = .next t →
    transactionsOf t.trace = transactionsOf s.trace ∧ (∀ a : Nat, t.chipByte a = s.chipByte a) ∧
    t.enMask = s.enMask ∧ t.initDone = s.initDone ∧ t.inputs = s.inputs ∧
    ∀ d : Bool, exec i { s with initDone := d } = .next { t with initDone := d }

/-! Whole-machine rules -/

/-- R22, "written by": in any step without reset, only SETVCO writes VCO_REF, only SETRDIV writes RDIV, only SETDRIVE
writes a drive code and only its own channel's, only INIT and SETFREQ write EN_MASK, only INIT writes INIT_DONE. -/
def Obligations.RegistersHaveTheirWriters : Prop :=
  ∀ (i : Instr) (s t : State), exec i s = .next t →
    ((∀ v, i ≠ .setvco v) → t.vcoRef = s.vcoRef) ∧
    ((∀ r, i ≠ .setrdiv r) → t.rdiv = s.rdiv) ∧
    ((∀ d, i ≠ .setdrive 0#2 d) → t.drive0 = s.drive0) ∧
    ((∀ d, i ≠ .setdrive 1#2 d) → t.drive1 = s.drive1) ∧
    ((∀ d, i ≠ .setdrive 2#2 d) → t.drive2 = s.drive2) ∧
    ((i ≠ .init ∧ ∀ ch fout, i ≠ .setfreq ch fout) → t.enMask = s.enMask) ∧
    (i ≠ .init → t.initDone = s.initDone)

/-- R44, R45, R72: in a state that keeps the invariant, every transaction a step emits is one the register map lists, with
a value its table gives, and only INIT emits those the map gives to INIT. -/
def Obligations.OnlyMappedRegistersWritten : Prop :=
  ∀ s t : State, EngineInv s → step s = .next t →
    ∃ ts : List Transaction, transactionsOf t.trace = transactionsOf s.trace ++ ts ∧
      (∀ x ∈ ts, inRegisterMap x) ∧
      ((∃ x ∈ ts, initOnly x) → ∃ w rest, s.inputs = .command w :: rest ∧ decode w = .instr .init)

/-- R41, R55: no value the chip holds can influence the engine: with another chip content a step does the same to every
register and puts the same on every port. The chip content is the model's image
(log entry 7). -/
def Obligations.ChipContentNeverRead : Prop :=
  ∀ (s t : State) (m : Memory), step s = .next t →
    ∃ m' : Memory, step { s with chip := m } = .next { t with chip := m' }

/-- The invariant holds right after reset, where the transcript and the chip's image are empty (log entry 17). -/
def Obligations.ResetKeepsEngineRules : Prop := EngineInv State.reset

/-- R24, R27, R44, R45, R51, R151: every step keeps the invariant. Its clauses on the chip's registers (canonical form, the
map, the replay of the transcript, EN_MASK at register 3) speak of the model's own image and transcript, kept across
reset: the model's choice (log entries 7, 8 and 6). -/
def Obligations.StepKeepsEngineRules : Prop :=
  ∀ s t : State, EngineInv s → step s = .next t → EngineInv t
end

