-- ==== Sys2Proof/Laws/Assembler.lean ====
section
/-! SUPPORT. What the assembler's operand checks and its word packing answer (R62, R75, R76). -/

namespace Sys2Proof.Machine

/-- An operand below 2^w is taken as it is (R75). -/
theorem operandFits_of_lt {w n : Nat} (h : n < 2 ^ w) : operandFits (w := w) n = some (BitVec.ofNat w n) := by
  simp [operandFits, h]

/-- A larger operand is refused (R75). -/
theorem operandFits_of_not_lt {w n : Nat} (h : ¬n < 2 ^ w) : operandFits (w := w) n = none := by
  simp [operandFits, h]

/-- A current other than the four of R26 has no code. -/
theorem driveCodeOf_other {ma : Nat} (h : ¬(ma = 2 ∨ ma = 4 ∨ ma = 6 ∨ ma = 8)) : driveCodeOf ma = none := by
  simp_all [driveCodeOf]

/-- SETDRIVE without a code is refused. -/
@[simp] theorem asmSetdrive_none (ch : Nat) : asmSetdrive ch none = none := by
  unfold asmSetdrive; split <;> simp_all

/-- SETFREQ's operands both fit, or the line is refused. -/
theorem asmSetfreq_eq (ch fout : Nat) :
    asmSetfreq ch fout =
      if ch ≤ 3 ∧ fout < 2 ^ 32 then some (.setfreq (BitVec.ofNat 2 ch) (BitVec.ofNat 32 fout)) else none := by
  unfold asmSetfreq
  by_cases h1 : ch < 2 ^ 2 <;> by_cases h2 : fout < 2 ^ 32
  · rw [operandFits_of_lt h1, operandFits_of_lt h2, if_pos ⟨by omega, h2⟩]
  · rw [operandFits_of_lt h1, operandFits_of_not_lt h2, if_neg (by omega)]
  all_goals rw [operandFits_of_not_lt h1, if_neg (by omega)]

/-- The packed word as a number: OP × 2^60 + CH × 2^32 + DATA (R62). -/
theorem packWord_ofNat (op : BitVec 4) {ch d : Nat} (hc : ch ≤ 3) (hd : d < 2 ^ 32) :
    packWord op (BitVec.ofNat 2 ch) (BitVec.ofNat 32 d) = BitVec.ofNat 64 (op.toNat * 2 ^ 60 + ch * 2 ^ 32 + d) := by
  have ho := op.isLt
  apply BitVec.eq_of_toNat_eq
  simp only [packWord, BitVec.toNat_append, BitVec.toNat_ofNat]
  rw [← Nat.shiftLeft_add_eq_or_of_lt (by omega), ← Nat.shiftLeft_add_eq_or_of_lt (by omega),
    ← Nat.shiftLeft_add_eq_or_of_lt (by omega)]
  simp only [Nat.shiftLeft_eq]
  omega

end Sys2Proof.Machine
end

