-- ==== Sys2Proof/Laws/Decode.lean ====
section
/-! SUPPORT. The command word: its fields as numbers, the fields of a packed word, and when the decoder accepts a word. -/

namespace Sys2Proof.Machine

/-- A packed word gives its fields back (R62). -/
theorem packWord_fields (op : BitVec 4) (ch : BitVec 2) (d : BitVec 32) :
    fieldOp (packWord op ch d) = op ∧ fieldRsvd (packWord op ch d) = 0#26 ∧ fieldCh (packWord op ch d) = ch ∧
      fieldData (packWord op ch d) = d := by
  refine ⟨?_, ?_, ?_, ?_⟩ <;> apply BitVec.eq_of_toNat_eq <;>
  simp only [fieldOp, fieldRsvd, fieldCh, fieldData, packWord, BitVec.extractLsb'_toNat, BitVec.toNat_append,
    Nat.shiftRight_eq_div_pow, Nat.shiftLeft_eq, BitVec.toNat_ofNat]
  all_goals (have h1 := op.isLt; have h2 := ch.isLt; have h3 := d.isLt)
  all_goals rw [← Nat.shiftLeft_eq,← Nat.shiftLeft_eq,← Nat.shiftLeft_eq]
  all_goals rw [← Nat.shiftLeft_add_eq_or_of_lt (by omega), ← Nat.shiftLeft_add_eq_or_of_lt (by omega), ← Nat.shiftLeft_add_eq_or_of_lt (by omega)]
  all_goals simp only [Nat.shiftLeft_eq]
  all_goals omega

/-- The fields of a word as numbers (R62). -/
theorem fields_toNat (w : CmdWord) : (fieldOp w).toNat = wordOp w ∧ (fieldRsvd w).toNat = wordRsvd w ∧ (fieldCh w).toNat = wordCh w ∧ (fieldData w).toNat = wordData w := by
  have := w.isLt
  simp only [fieldOp, fieldRsvd, fieldCh, fieldData, wordOp, wordRsvd, wordCh, wordData, BitVec.extractLsb'_toNat, Nat.shiftRight_eq_div_pow, Nat.pow_zero, Nat.div_one]
  refine ⟨?_, ?_, ?_, ?_⟩
  · exact Nat.mod_eq_of_lt (by omega)
  · trivial
  · trivial
  · trivial

/-- A word is its OP, CH and DATA packed exactly when RSVD is zero (R62). -/
theorem packWord_eq_iff (w : CmdWord) : packWord (fieldOp w) (fieldCh w) (fieldData w) = w ↔ fieldRsvd w = 0#26 := by
  constructor
  · intro h
    have := (packWord_fields (fieldOp w) (fieldCh w) (fieldData w)).2.1
    rwa [h] at this
  · intro h
    obtain ⟨a,b,c,d⟩ := fields_toNat w
    have hw := w.isLt
    apply BitVec.eq_of_toNat_eq
    simp only [packWord, BitVec.toNat_append, Nat.shiftLeft_eq, BitVec.toNat_ofNat, a, c, d]
    rw [h] at b
    simp only [wordOp, wordRsvd, wordCh, wordData, BitVec.toNat_ofNat] at b c d a ⊢
    rw [← Nat.shiftLeft_eq,← Nat.shiftLeft_eq,← Nat.shiftLeft_eq]
    rw [← Nat.shiftLeft_add_eq_or_of_lt (by omega), ← Nat.shiftLeft_add_eq_or_of_lt (by omega), ← Nat.shiftLeft_add_eq_or_of_lt (by omega)]
    simp only [Nat.shiftLeft_eq]
    omega

/-- What the fields are when the decoder accepts a word (R64, R66). -/
theorem decode_cases {w : CmdWord} {i : Instr} (h : decode w = .instr i) : fieldRsvd w = 0#26 ∧
    ((i = .init ∧ fieldOp w = opInit ∧ fieldCh w = 0#2 ∧ fieldData w = 0#32) ∨
     (i = .setfreq (fieldCh w) (fieldData w) ∧ fieldOp w = opSetfreq) ∨
     (i = .setvco (fieldData w) ∧ fieldOp w = opSetvco ∧ fieldCh w = 0#2) ∨
     (i = .setrdiv ((fieldData w).extractLsb' 0 3) ∧ fieldOp w = opSetrdiv ∧ fieldCh w = 0#2 ∧ (fieldData w).extractLsb' 3 29 = 0#29) ∨
     (i = .setdrive (fieldCh w) ((fieldData w).extractLsb' 0 2) ∧ fieldOp w = opSetdrive ∧ (fieldData w).extractLsb' 2 30 = 0#30) ∨
     (i = .compute (fieldData w) ∧ fieldOp w = opCompute ∧ fieldCh w = 0#2)) := by
  unfold decode unlessReserved at h
  repeat' split at h
  all_goals simp_all

/-- A word is rejected only as an illegal opcode or for reserved bits: CH = 3 is left to the command (R67). -/
theorem decode_rejected {w : CmdWord} {why : FaultCode} (h : decode w = .rejected why) :
    why = .illegalOpcode ∨ why = .reservedBits := by
  unfold decode unlessReserved at h
  repeat' split at h
  all_goals first | (cases h; done) | (cases h; simp)

end Sys2Proof.Machine
end

