-- ==== Sys2Proof/Laws/Divider.lean ====
section
/-! SUPPORT. The Divider Calculator: the normalization loop as one shift, the ranges of its result, and when the packed
fields exist. -/

namespace Sys2Proof.Machine

theorem bitLength_le_iff (n m : Nat) : bitLength n ≤ m ↔ n < 2 ^ m := by
  unfold bitLength
  split
  · next h => subst h; simp
  · next h => rw [Nat.add_one_le_iff, Nat.log2_lt h]

theorem bitLength_half {n : Nat} (h : 2 ≤ n) : bitLength n = bitLength (n / 2) + 1 := by
  have h1 : n ≠ 0 := by omega
  have h2 : n / 2 ≠ 0 := by omega
  simp only [bitLength, h1, h2, if_false]
  rw [Nat.log2_def n, if_pos h]

theorem closedShift_eq_zero_iff (n : Nat) : closedShift n = 0 ↔ n < 2 ^ 20 := by
  rw [closedShift, Nat.sub_eq_zero_iff_le, bitLength_le_iff]

theorem closedShift_le_iff (n k : Nat) : closedShift n ≤ k ↔ n < 2 ^ (20 + k) := by
  rw [closedShift, Nat.sub_le_iff_le_add, Nat.add_comm k 20, bitLength_le_iff]

theorem closedShift_half {n : Nat} (h : 2 ^ 20 ≤ n) : closedShift n = closedShift (n / 2) + 1 := by
  have h20 : 20 < bitLength n := by
    by_contra hc
    exact absurd ((bitLength_le_iff n 20).1 (by omega)) (by omega)
  have := bitLength_half (n := n) (by omega)
  simp only [closedShift]
  omega

/-- The loop is one shift by k (R86), as long as its fuel reaches. -/
theorem normalize_eq (fuel b c : Nat) (h : c < 2 ^ (20 + fuel)) :
    normalize fuel b c = (b / 2 ^ closedShift c, c / 2 ^ closedShift c) := by
  induction fuel generalizing b c with
  | zero => simp [normalize, (closedShift_eq_zero_iff c).2 (by simpa using h)]
  | succ n ih =>
    simp only [normalize, cBits, Nat.shiftRight_eq_div_pow]
    split
    · next hc =>
      have hc' : 2 ^ 20 ≤ c := by
        by_contra hlt
        exact hc (Nat.div_eq_of_lt (by omega))
      rw [ih _ _ (by rw [← Nat.add_assoc, Nat.pow_succ] at h; omega), closedShift_half hc']
      simp [Nat.div_div_eq_div_mul, Nat.pow_succ']
    · next hc =>
      have hc' : c < 2 ^ 20 := by omega
      simp [(closedShift_eq_zero_iff c).2 hc']

/-- computeDivider in closed form (R81, R86). -/
theorem computeDivider_eq (vco fout : Freq) : computeDivider vco fout = closedDivider vco.toNat fout.toNat := by
  have h := fout.isLt
  simp only [computeDivider, closedDivider, maxShifts]
  rw [normalize_eq _ _ _ (by simpa using h)]

/-- c stays below 2^20, and at or above 2^19 when a shift was made. -/
theorem closedDivider_c_bounds (vco fout : Nat) :
    (closedDivider vco fout).c < 2 ^ 20 ∧ (2 ^ 20 ≤ fout → 2 ^ 19 ≤ (closedDivider vco fout).c) := by
  simp only [closedDivider]
  constructor
  · rw [Nat.div_lt_iff_lt_mul (Nat.two_pow_pos _), ← Nat.pow_add]
    exact (closedShift_le_iff fout _).1 (Nat.le_refl _)
  · intro h
    have hk : ¬closedShift fout ≤ closedShift fout - 1 := by
      have := (closedShift_eq_zero_iff fout).not.2 (by omega)
      omega
    rw [closedShift_le_iff] at hk
    have hk0 := (closedShift_eq_zero_iff fout).not.2 (by omega : ¬fout < 2 ^ 20)
    rw [Nat.le_div_iff_mul_le (Nat.two_pow_pos _), ← Nat.pow_add]
    have : 19 + closedShift fout = 20 + (closedShift fout - 1) := by omega
    rw [this]
    omega

/-- b never exceeds c (R85). -/
theorem closedDivider_b_le_c (vco fout : Nat) (h : 0 < fout) :
    (closedDivider vco fout).b ≤ (closedDivider vco fout).c :=
  Nat.div_le_div_right (Nat.le_of_lt (Nat.mod_lt _ h))

/-- c is never 0 for a serviceable fout: it is at least 500_000 (R107). -/
theorem closedDivider_c_ge {vco fout : Nat} (h : Serviceable fout) : 500000 ≤ (closedDivider vco fout).c := by
  by_cases hf : 2 ^ 20 ≤ fout
  · have := (closedDivider_c_bounds vco fout).2 hf
    omega
  · simp only [closedDivider, (closedShift_eq_zero_iff fout).2 (by omega), Nat.pow_zero, Nat.div_one]
    exact h.1

/-- 128 × a + floor(128 × b / c) is p1 + 512 (R105). -/
theorem rawP1_eq (d : Divider) : rawP1 d = (closedP1Plus512 d : Int) - 512 := by
  simp only [rawP1, quotient128, closedP1Plus512]
  push_cast
  ring

/-- The packed fields exist exactly when P1 fits (R106), and are then these. -/
theorem packFields_eq (d : Divider) :
    packFields d =
      if 512 ≤ closedP1Plus512 d ∧ closedP1Plus512 d < 512 + 2 ^ 20 then
        some { p1 := BitVec.ofNat 20 (closedP1Plus512 d - 512)
               p2 := BitVec.ofNat 20 (128 * d.b % d.c)
               p3 := BitVec.ofNat 20 d.c }
      else none := by
  have hp2 : 128 * d.b - quotient128 d * d.c = 128 * d.b % d.c := by
    have := Nat.div_add_mod' (128 * d.b) d.c
    simp only [quotient128]
    omega
  simp only [packFields, rawP1_eq, p1Limit, hp2]
  by_cases h : 512 ≤ closedP1Plus512 d ∧ closedP1Plus512 d < 512 + 2 ^ 20
  · have hn : ((closedP1Plus512 d : Int) - 512).toNat = closedP1Plus512 d - 512 := by omega
    rw [if_pos (by omega), if_pos h, hn]
  · rw [if_neg (by omega), if_neg h]

/-- q is at most 128 when b ≤ c, and 128 exactly when b = c (R105). -/
theorem quotient128_le {d : Divider} (hc : 0 < d.c) (hb : d.b ≤ d.c) :
    quotient128 d ≤ 128 ∧ (quotient128 d = 128 ↔ d.b = d.c) := by
  have hle : quotient128 d ≤ 128 := by
    rw [quotient128, Nat.div_le_iff_le_mul_add_pred hc]
    nlinarith
  refine ⟨hle, ?_⟩
  have hge : 128 ≤ quotient128 d ↔ d.c ≤ d.b := by
    rw [quotient128, Nat.le_div_iff_mul_le hc]
    omega
  omega

end Sys2Proof.Machine
end

