-- ==== Sys2Proof/Laws/Memory.lean ====
section
/-! SUPPORT. The chip's register space: read after write, the canonical form, and what delivering a transaction does. -/

namespace Sys2Proof.Machine

@[simp] theorem Memory.read_nil (a : Nat) : Memory.read [] a = none := rfl

/-- A register reads as the byte it last received, and a write leaves every other register alone. -/
@[simp] theorem Memory.read_write (m : Memory) (a : Nat) (v : Byte) (x : Nat) :
    Memory.read (Memory.write m a v) x = if x = a then some v else Memory.read m x := by
  induction m with
  | nil => simp [Memory.write, Memory.read, eq_comm]
  | cons kv rest ih =>
    obtain ⟨k, u⟩ := kv
    simp only [Memory.write]
    split
    · simp only [Memory.read]; grind
    · split
      · simp only [Memory.read]; grind
      · simp only [Memory.read, ih]; grind

theorem Memory.wfFrom_mono {m : Memory} {lo lo' : Nat} (h : lo' ≤ lo) (hm : Memory.wfFrom lo m = true) :
    Memory.wfFrom lo' m = true := by
  cases m with
  | nil => rfl
  | cons kv rest =>
    simp only [Memory.wfFrom, Bool.and_eq_true, decide_eq_true_eq] at hm ⊢
    exact ⟨⟨by omega, hm.1.2⟩, hm.2⟩

theorem Memory.wfFrom_write {m : Memory} {lo a : Nat} {v : Byte} (hlo : lo ≤ a) (ha : a < 256)
    (hm : Memory.wfFrom lo m = true) : Memory.wfFrom lo (Memory.write m a v) = true := by
  induction m generalizing lo with
  | nil => simp [Memory.write, Memory.wfFrom, hlo, ha]
  | cons kv rest ih =>
    obtain ⟨k, u⟩ := kv
    simp only [Memory.wfFrom, Bool.and_eq_true, decide_eq_true_eq] at hm
    obtain ⟨⟨h1, h2⟩, h3⟩ := hm
    simp only [Memory.write]
    split
    · simp only [Memory.wfFrom, Bool.and_eq_true, decide_eq_true_eq]
      exact ⟨⟨hlo, ha⟩, ⟨⟨by omega, h2⟩, h3⟩⟩
    · split
      · subst a
        simp only [Memory.wfFrom, Bool.and_eq_true, decide_eq_true_eq]
        exact ⟨⟨hlo, ha⟩, h3⟩
      · simp only [Memory.wfFrom, Bool.and_eq_true, decide_eq_true_eq]
        exact ⟨⟨h1, h2⟩, ih (by omega) h3⟩

/-- Writing a register keeps the canonical form. -/
theorem Memory.wf_write {m : Memory} {a : Nat} {v : Byte} (ha : a < 256) (hm : Memory.wf m = true) :
    Memory.wf (Memory.write m a v) = true := Memory.wfFrom_write (Nat.zero_le a) ha hm

theorem Memory.wf_nil : Memory.wf [] = true := rfl

theorem Memory.wf_reset : Memory.wf State.reset.chip = true := rfl

theorem blockReg_lt (addr : Byte) (i : Nat) : blockReg addr i < 256 := (addr + BitVec.ofNat 8 i).isLt

/-- Delivering a transaction keeps the canonical form. -/
theorem Memory.wf_deliver {m : Memory} (t : Transaction) (hm : Memory.wf m = true) :
    Memory.wf (deliver m t) = true := by
  cases t with
  | w addr v => exact Memory.wf_write addr.isLt hm
  | b addr d =>
    simp only [deliver]
    repeat' apply Memory.wf_write (blockReg_lt _ _)
    exact hm

/-- A single write changes one register. -/
@[simp] theorem read_deliver_w (m : Memory) (addr v : Byte) (x : Nat) :
    Memory.read (deliver m (.w addr v)) x = if x = addr.toNat then some v else Memory.read m x := by
  simp [deliver]

/-- A block that does not pass register 255 changes its eight registers and no other. -/
theorem read_deliver_b (m : Memory) (addr : Byte) (d : Block) (x : Nat) (h : addr.toNat + 7 < 256) :
    Memory.read (deliver m (.b addr d)) x =
      if addr.toNat ≤ x ∧ x ≤ addr.toNat + 7 then some (d.byteAt (x - addr.toNat)) else Memory.read m x := by
  have hr : ∀ i, i < 8 → blockReg addr i = addr.toNat + i := by
    intro i hi
    simp only [blockReg, BitVec.toNat_add, BitVec.toNat_ofNat]
    omega
  simp only [deliver, Memory.read_write, hr 0 (by omega), hr 1 (by omega), hr 2 (by omega), hr 3 (by omega),
    hr 4 (by omega), hr 5 (by omega), hr 6 (by omega), hr 7 (by omega)]
  by_cases hx : addr.toNat ≤ x ∧ x ≤ addr.toNat + 7
  · obtain ⟨i, rfl⟩ : ∃ i, x = addr.toNat + i := ⟨x - addr.toNat, by omega⟩
    have hi : i < 8 := by omega
    simp only [Nat.add_sub_cancel_left, hx, and_self, if_true, Nat.add_left_cancel_iff]
    interval_cases i <;> rfl
  · rw [if_neg hx]
    repeat rw [if_neg (by omega)]

end Sys2Proof.Machine
end

