-- ==== Sys2Proof/Laws/State.lean ====
section
/-! SUPPORT. What each state update leaves in each field, one lemma per field per update. -/

namespace Sys2Proof.Machine

@[simp] theorem emit_vcoRef (t : Transaction) (s : State) :
    (emit t s).vcoRef = s.vcoRef := rfl
@[simp] theorem emit_rdiv (t : Transaction) (s : State) :
    (emit t s).rdiv = s.rdiv := rfl
@[simp] theorem emit_drive0 (t : Transaction) (s : State) :
    (emit t s).drive0 = s.drive0 := rfl
@[simp] theorem emit_drive1 (t : Transaction) (s : State) :
    (emit t s).drive1 = s.drive1 := rfl
@[simp] theorem emit_drive2 (t : Transaction) (s : State) :
    (emit t s).drive2 = s.drive2 := rfl
@[simp] theorem emit_enMask (t : Transaction) (s : State) :
    (emit t s).enMask = s.enMask := rfl
@[simp] theorem emit_initDone (t : Transaction) (s : State) :
    (emit t s).initDone = s.initDone := rfl
@[simp] theorem emit_fault (t : Transaction) (s : State) :
    (emit t s).fault = s.fault := rfl
@[simp] theorem emit_faultCode (t : Transaction) (s : State) :
    (emit t s).faultCode = s.faultCode := rfl
@[simp] theorem emit_inputs (t : Transaction) (s : State) :
    (emit t s).inputs = s.inputs := rfl
@[simp] theorem emit_trace (t : Transaction) (s : State) :
    (emit t s).trace = s.trace ++ [.write t] := rfl
@[simp] theorem emit_chip (t : Transaction) (s : State) :
    (emit t s).chip = deliver s.chip t := rfl

@[simp] theorem respond_vcoRef (r : Response) (s : State) :
    (respond r s).vcoRef = s.vcoRef := rfl
@[simp] theorem respond_rdiv (r : Response) (s : State) :
    (respond r s).rdiv = s.rdiv := rfl
@[simp] theorem respond_drive0 (r : Response) (s : State) :
    (respond r s).drive0 = s.drive0 := rfl
@[simp] theorem respond_drive1 (r : Response) (s : State) :
    (respond r s).drive1 = s.drive1 := rfl
@[simp] theorem respond_drive2 (r : Response) (s : State) :
    (respond r s).drive2 = s.drive2 := rfl
@[simp] theorem respond_enMask (r : Response) (s : State) :
    (respond r s).enMask = s.enMask := rfl
@[simp] theorem respond_initDone (r : Response) (s : State) :
    (respond r s).initDone = s.initDone := rfl
@[simp] theorem respond_fault (r : Response) (s : State) :
    (respond r s).fault = s.fault := rfl
@[simp] theorem respond_faultCode (r : Response) (s : State) :
    (respond r s).faultCode = s.faultCode := rfl
@[simp] theorem respond_inputs (r : Response) (s : State) :
    (respond r s).inputs = s.inputs := rfl
@[simp] theorem respond_trace (r : Response) (s : State) :
    (respond r s).trace = s.trace ++ [.response (responseWord r)] := rfl
@[simp] theorem respond_chip (r : Response) (s : State) :
    (respond r s).chip = s.chip := rfl

@[simp] theorem raiseFault_vcoRef (code : FaultCode) (s : State) :
    (raiseFault code s).vcoRef = s.vcoRef := rfl
@[simp] theorem raiseFault_rdiv (code : FaultCode) (s : State) :
    (raiseFault code s).rdiv = s.rdiv := rfl
@[simp] theorem raiseFault_drive0 (code : FaultCode) (s : State) :
    (raiseFault code s).drive0 = s.drive0 := rfl
@[simp] theorem raiseFault_drive1 (code : FaultCode) (s : State) :
    (raiseFault code s).drive1 = s.drive1 := rfl
@[simp] theorem raiseFault_drive2 (code : FaultCode) (s : State) :
    (raiseFault code s).drive2 = s.drive2 := rfl
@[simp] theorem raiseFault_enMask (code : FaultCode) (s : State) :
    (raiseFault code s).enMask = s.enMask := rfl
@[simp] theorem raiseFault_initDone (code : FaultCode) (s : State) :
    (raiseFault code s).initDone = s.initDone := rfl
@[simp] theorem raiseFault_fault (code : FaultCode) (s : State) :
    (raiseFault code s).fault = true := rfl
@[simp] theorem raiseFault_faultCode (code : FaultCode) (s : State) :
    (raiseFault code s).faultCode = faultCodeBits code := rfl
@[simp] theorem raiseFault_inputs (code : FaultCode) (s : State) :
    (raiseFault code s).inputs = s.inputs := rfl
@[simp] theorem raiseFault_trace (code : FaultCode) (s : State) :
    (raiseFault code s).trace = s.trace ++ [.response (responseWord (.fault code))] := rfl
@[simp] theorem raiseFault_chip (code : FaultCode) (s : State) :
    (raiseFault code s).chip = s.chip := rfl

@[simp] theorem updateMask_vcoRef (m : BitVec 8) (s : State) :
    (updateMask m s).vcoRef = s.vcoRef := rfl
@[simp] theorem updateMask_rdiv (m : BitVec 8) (s : State) :
    (updateMask m s).rdiv = s.rdiv := rfl
@[simp] theorem updateMask_drive0 (m : BitVec 8) (s : State) :
    (updateMask m s).drive0 = s.drive0 := rfl
@[simp] theorem updateMask_drive1 (m : BitVec 8) (s : State) :
    (updateMask m s).drive1 = s.drive1 := rfl
@[simp] theorem updateMask_drive2 (m : BitVec 8) (s : State) :
    (updateMask m s).drive2 = s.drive2 := rfl
@[simp] theorem updateMask_enMask (m : BitVec 8) (s : State) :
    (updateMask m s).enMask = m := rfl
@[simp] theorem updateMask_initDone (m : BitVec 8) (s : State) :
    (updateMask m s).initDone = s.initDone := rfl
@[simp] theorem updateMask_fault (m : BitVec 8) (s : State) :
    (updateMask m s).fault = s.fault := rfl
@[simp] theorem updateMask_faultCode (m : BitVec 8) (s : State) :
    (updateMask m s).faultCode = s.faultCode := rfl
@[simp] theorem updateMask_inputs (m : BitVec 8) (s : State) :
    (updateMask m s).inputs = s.inputs := rfl
@[simp] theorem updateMask_trace (m : BitVec 8) (s : State) :
    (updateMask m s).trace = s.trace ++ [.write (.w oeAddr m)] := rfl
@[simp] theorem updateMask_chip (m : BitVec 8) (s : State) :
    (updateMask m s).chip = deliver s.chip (.w oeAddr m) := rfl

@[simp] theorem offerNext_vcoRef (w : CmdWord) (s : State) :
    (offerNext w s).vcoRef = s.vcoRef := rfl
@[simp] theorem offerNext_rdiv (w : CmdWord) (s : State) :
    (offerNext w s).rdiv = s.rdiv := rfl
@[simp] theorem offerNext_drive0 (w : CmdWord) (s : State) :
    (offerNext w s).drive0 = s.drive0 := rfl
@[simp] theorem offerNext_drive1 (w : CmdWord) (s : State) :
    (offerNext w s).drive1 = s.drive1 := rfl
@[simp] theorem offerNext_drive2 (w : CmdWord) (s : State) :
    (offerNext w s).drive2 = s.drive2 := rfl
@[simp] theorem offerNext_enMask (w : CmdWord) (s : State) :
    (offerNext w s).enMask = s.enMask := rfl
@[simp] theorem offerNext_initDone (w : CmdWord) (s : State) :
    (offerNext w s).initDone = s.initDone := rfl
@[simp] theorem offerNext_fault (w : CmdWord) (s : State) :
    (offerNext w s).fault = s.fault := rfl
@[simp] theorem offerNext_faultCode (w : CmdWord) (s : State) :
    (offerNext w s).faultCode = s.faultCode := rfl
@[simp] theorem offerNext_inputs (w : CmdWord) (s : State) :
    (offerNext w s).inputs = .command w :: s.inputs := rfl
@[simp] theorem offerNext_trace (w : CmdWord) (s : State) :
    (offerNext w s).trace = s.trace := rfl
@[simp] theorem offerNext_chip (w : CmdWord) (s : State) :
    (offerNext w s).chip = s.chip := rfl

@[simp] theorem resetEvent_vcoRef  (s : State) :
    (resetEvent s).vcoRef = State.reset.vcoRef := rfl
@[simp] theorem resetEvent_rdiv  (s : State) :
    (resetEvent s).rdiv = State.reset.rdiv := rfl
@[simp] theorem resetEvent_drive0  (s : State) :
    (resetEvent s).drive0 = State.reset.drive0 := rfl
@[simp] theorem resetEvent_drive1  (s : State) :
    (resetEvent s).drive1 = State.reset.drive1 := rfl
@[simp] theorem resetEvent_drive2  (s : State) :
    (resetEvent s).drive2 = State.reset.drive2 := rfl
@[simp] theorem resetEvent_enMask  (s : State) :
    (resetEvent s).enMask = State.reset.enMask := rfl
@[simp] theorem resetEvent_initDone  (s : State) :
    (resetEvent s).initDone = State.reset.initDone := rfl
@[simp] theorem resetEvent_fault  (s : State) :
    (resetEvent s).fault = State.reset.fault := rfl
@[simp] theorem resetEvent_faultCode  (s : State) :
    (resetEvent s).faultCode = State.reset.faultCode := rfl
@[simp] theorem resetEvent_inputs  (s : State) :
    (resetEvent s).inputs = s.inputs := rfl
@[simp] theorem resetEvent_trace  (s : State) :
    (resetEvent s).trace = s.trace := rfl
@[simp] theorem resetEvent_chip  (s : State) :
    (resetEvent s).chip = s.chip := rfl

@[simp] theorem writeDrive_vcoRef (ch : Channel) (d : BitVec 2) (s : State) :
    (writeDrive ch d s).vcoRef = s.vcoRef := by cases ch <;> rfl
@[simp] theorem writeDrive_rdiv (ch : Channel) (d : BitVec 2) (s : State) :
    (writeDrive ch d s).rdiv = s.rdiv := by cases ch <;> rfl
@[simp] theorem writeDrive_enMask (ch : Channel) (d : BitVec 2) (s : State) :
    (writeDrive ch d s).enMask = s.enMask := by cases ch <;> rfl
@[simp] theorem writeDrive_initDone (ch : Channel) (d : BitVec 2) (s : State) :
    (writeDrive ch d s).initDone = s.initDone := by cases ch <;> rfl
@[simp] theorem writeDrive_fault (ch : Channel) (d : BitVec 2) (s : State) :
    (writeDrive ch d s).fault = s.fault := by cases ch <;> rfl
@[simp] theorem writeDrive_faultCode (ch : Channel) (d : BitVec 2) (s : State) :
    (writeDrive ch d s).faultCode = s.faultCode := by cases ch <;> rfl
@[simp] theorem writeDrive_inputs (ch : Channel) (d : BitVec 2) (s : State) :
    (writeDrive ch d s).inputs = s.inputs := by cases ch <;> rfl
@[simp] theorem writeDrive_trace (ch : Channel) (d : BitVec 2) (s : State) :
    (writeDrive ch d s).trace = s.trace := by cases ch <;> rfl
@[simp] theorem writeDrive_chip (ch : Channel) (d : BitVec 2) (s : State) :
    (writeDrive ch d s).chip = s.chip := by cases ch <;> rfl

/-- A drive register reads back what was written; the other two keep their codes. -/
@[simp] theorem readDrive_writeDrive (ch ch' : Channel) (d : BitVec 2) (s : State) :
    readDrive ch' (writeDrive ch d s) = if ch' = ch then d else readDrive ch' s := by
  cases ch <;> cases ch' <;> rfl

@[simp] theorem readDrive_emit (ch : Channel) (t : Transaction) (s : State) :
    readDrive ch (emit t s) = readDrive ch s := by cases ch <;> rfl

end Sys2Proof.Machine
end

