-- ==== Sys2Proof/Laws/Exec.lean ====
section
/-! SUPPORT. One lemma per operand form and per shared operation, and what each command can do: an equation for each of its
cases, and one inversion lemma over all commands. -/

namespace Sys2Proof.Machine

@[simp] theorem channelOf_index (c : Channel) : channelOf (BitVec.ofNat 2 (channelIndex c)) = some c := by
  cases c <;> rfl

@[simp] theorem channelOf_three : channelOf 3#2 = none := rfl

theorem channelIndex_lt (c : Channel) : channelIndex c < 3 := by cases c <;> decide

theorem channelOf_eq_some {ch : BitVec 2} {c : Channel} :
    channelOf ch = some c ↔ ch.toNat = channelIndex c := by
  revert ch c
  intro ch c
  cases c <;> revert ch <;> decide

theorem channelOf_eq_none {ch : BitVec 2} : channelOf ch = none ↔ ch = 3#2 := by
  revert ch; decide

@[simp] theorem inRange_eq_true (fout : Freq) : inRange fout = true ↔ Serviceable fout.toNat := by
  rw [inRange, Bool.and_eq_true, decide_eq_true_eq, decide_eq_true_eq]
  exact Iff.rfl

theorem inRange_eq_false (fout : Freq) : inRange fout = false ↔ ¬Serviceable fout.toNat := by
  rw [← inRange_eq_true, Bool.not_eq_true]

theorem anyEnabled_eq_true (s : State) : anyEnabled s.enMask = true ↔ SomeEnabled s := by
  obtain ⟨_, _, _, _, _, m, _⟩ := s
  simp only [SomeEnabled]
  revert m
  decide

@[simp] theorem responseWord_ok : responseWord .ok = 0#128 := by decide

/-- Raising a fault leaves exactly FAULT, FAULT_CODE and the response changed (R150, R155). -/
theorem raiseFault_eq (code : FaultCode) (s : State) : raiseFault code s = s.faulted (faultCodeBits code) := by
  cases code <;> rfl

theorem faultCodeBits_bounds (code : FaultCode) :
    1 ≤ (faultCodeBits code).toNat ∧ (faultCodeBits code).toNat ≤ 8 := by cases code <;> decide

theorem msAddr_toNat (c : Channel) : (msAddr c).toNat = 42 + 8 * channelIndex c := by cases c <;> rfl

theorem ctrlAddr_toNat (c : Channel) : (ctrlAddr c).toNat = 16 + channelIndex c := by cases c <;> rfl

theorem controlByte_eq (d : BitVec 2) : controlByte d = BitVec.ofNat 8 (12 + d.toNat) := by
  revert d; decide

/-- The block's bytes as arithmetic on P1, P2, P3 and rdiv (R70, R108). -/
theorem multisynthBlock_eq {p1 p2 p3 : Nat} (r : BitVec 3) (h1 : p1 < 2 ^ 20) (h2 : p2 < 2 ^ 20) (h3 : p3 < 2 ^ 20) :
    multisynthBlock { p1 := BitVec.ofNat 20 p1, p2 := BitVec.ofNat 20 p2, p3 := BitVec.ofNat 20 p3 } r =
      layoutBytes p1 p2 p3 r.toNat := by
  have hr := r.isLt
  have hpw : (p1Word (BitVec.ofNat 20 p1) r).toNat = r.toNat * 2 ^ 20 + p1 := by
    rw [p1Word, BitVec.toNat_or, BitVec.toNat_shiftLeft, BitVec.toNat_setWidth, BitVec.toNat_setWidth,
      BitVec.toNat_ofNat, Nat.mod_eq_of_lt (by omega : p1 < 2 ^ 20), Nat.mod_eq_of_lt (by omega : p1 < 2 ^ 24),
      Nat.mod_eq_of_lt (by omega : r.toNat < 2 ^ 24), Nat.shiftLeft_eq, Nat.mod_eq_of_lt (by omega),
      Nat.lor_comm, Nat.mul_comm, Nat.two_pow_add_eq_or_of_lt h1]
  have hb5 : ((BitVec.ofNat 20 p3).extractLsb' 16 4).setWidth 8 <<< 4 ||| ((BitVec.ofNat 20 p2).extractLsb' 16 4).setWidth 8
      = BitVec.ofNat 8 (p3 / 65536 * 16 + p2 / 65536) := by
    apply BitVec.eq_of_toNat_eq
    simp only [BitVec.toNat_or, BitVec.toNat_shiftLeft, BitVec.toNat_setWidth, BitVec.extractLsb'_toNat,
      BitVec.toNat_ofNat, Nat.shiftRight_eq_div_pow, Nat.shiftLeft_eq]
    rw [Nat.mod_eq_of_lt h3, Nat.mod_eq_of_lt h2, Nat.mod_eq_of_lt (by omega : p3 / 2 ^ 16 < 2 ^ 4),
      Nat.mod_eq_of_lt (by omega : p2 / 2 ^ 16 < 2 ^ 4), Nat.mod_eq_of_lt (by omega : p3 / 2 ^ 16 < 2 ^ 8),
      Nat.mod_eq_of_lt (by omega : p2 / 2 ^ 16 < 2 ^ 8), Nat.mod_eq_of_lt (by omega : p3 / 2 ^ 16 * 2 ^ 4 < 2 ^ 8),
      Nat.mul_comm, ← Nat.two_pow_add_eq_or_of_lt (by omega : p2 / 2 ^ 16 < 2 ^ 4)]
    omega
  simp only [multisynthBlock, layoutBytes, hb5, Block.mk.injEq, true_and]
  refine ⟨?_, ?_, ?_, ?_, ?_, ?_, ?_⟩ <;> apply BitVec.eq_of_toNat_eq <;>
    simp only [BitVec.extractLsb'_toNat, hpw, BitVec.toNat_ofNat, Nat.shiftRight_eq_div_pow] <;> omega

/-- The packed fields SETFREQ sends, by whether P1 fits (R104 to R107). -/
theorem packFields_computeDivider (vco fout : Freq) :
    packFields (computeDivider vco fout) =
      if FitsP1 vco.toNat fout.toNat then
        some { p1 := BitVec.ofNat 20 (closedP1Plus512 (closedDivider vco.toNat fout.toNat) - 512)
               p2 := BitVec.ofNat 20 (128 * (closedDivider vco.toNat fout.toNat).b % (closedDivider vco.toNat fout.toNat).c)
               p3 := BitVec.ofNat 20 (closedDivider vco.toNat fout.toNat).c }
      else none := by
  rw [computeDivider_eq, packFields_eq]

/-- The block SETFREQ sends in closed form. -/
theorem multisynthBlock_packed {vco fout : Freq} {f : Packed} (r : BitVec 3) (hs : Serviceable fout.toNat)
    (h : packFields (computeDivider vco fout) = some f) :
    multisynthBlock f r = closedBlock vco.toNat fout.toNat r.toNat := by
  rw [packFields_computeDivider] at h
  split at h
  · next hf =>
    rw [← Option.some.inj h]
    have hc := closedDivider_c_bounds vco.toNat fout.toNat
    have hc0 := closedDivider_c_ge (vco := vco.toNat) hs
    have hm := Nat.mod_lt (128 * (closedDivider vco.toNat fout.toNat).b) (by omega : 0 < (closedDivider vco.toNat fout.toNat).c)
    have h1 : closedP1Plus512 (closedDivider vco.toNat fout.toNat) - 512 < 2 ^ 20 := by
      obtain ⟨h1, h2⟩ := hf
      omega
    rw [multisynthBlock_eq r h1 (by omega) hc.1, closedBlock]
  · exact absurd h (by simp)

/-! SETFREQ, case by case. -/

theorem setFrequency_uninitialised {s : State} (c : Channel) (fout : Freq) (hi : s.initDone = false) :
    setFrequency c fout s = raiseFault .notInitialised s := by simp [setFrequency, hi]

theorem setFrequency_outOfRange {s : State} (c : Channel) {fout : Freq} (hi : s.initDone = true)
    (hr : ¬Serviceable fout.toNat) : setFrequency c fout s = disableChannel c s := by
  simp [setFrequency, hi, (inRange_eq_false fout).2 hr]

theorem setFrequency_outOfField {s : State} (c : Channel) {fout : Freq} (hi : s.initDone = true)
    (hr : Serviceable fout.toNat) (hf : ¬FitsP1 s.vcoRef.toNat fout.toNat) :
    setFrequency c fout s = raiseFault .dividerOutOfField s := by
  simp only [setFrequency, hi, if_true, (inRange_eq_true fout).2 hr, packFields_computeDivider, if_neg hf]

theorem setFrequency_programs {s : State} (c : Channel) {fout : Freq} (hi : s.initDone = true)
    (hr : Serviceable fout.toNat) (hf : FitsP1 s.vcoRef.toNat fout.toNat) :
    ∃ f, packFields (computeDivider s.vcoRef fout) = some f ∧ setFrequency c fout s = programChannel c f s := by
  obtain ⟨f, hpk⟩ : ∃ f, packFields (computeDivider s.vcoRef fout) = some f :=
    ⟨_, (packFields_computeDivider _ _).trans (if_pos hf)⟩
  exact ⟨f, hpk, by simp only [setFrequency, hi, if_true, (inRange_eq_true fout).2 hr, hpk]⟩

/-- The state programming a channel leaves. -/
theorem programChannel_eq (c : Channel) (f : Packed) (s : State) :
    programChannel c f s = { s with
      enMask := maskEnable c s.enMask
      trace := s.trace ++ [.write (.b (msAddr c) (multisynthBlock f s.rdiv)),
        .write (.w (ctrlAddr c) (controlByte (readDrive c s))), .write (.w oeAddr (maskEnable c s.enMask)),
        .response 0#128]
      chip := deliver (deliver (deliver s.chip (.b (msAddr c) (multisynthBlock f s.rdiv)))
        (.w (ctrlAddr c) (controlByte (readDrive c s)))) (.w oeAddr (maskEnable c s.enMask)) } := by
  cases c <;> simp [programChannel, updateMask, emit, respond, readDrive]

/-- The state disabling a channel leaves. -/
theorem disableChannel_eq (c : Channel) (s : State) :
    disableChannel c s = { s with
      enMask := maskDisable c s.enMask
      trace := s.trace ++ [.write (.w oeAddr (maskDisable c s.enMask)), .response 0#128]
      chip := deliver s.chip (.w oeAddr (maskDisable c s.enMask)) } := by
  simp [disableChannel, updateMask, emit, respond]

/-- The state INIT leaves. -/
theorem initialise_eq (s : State) :
    initialise s = { s with
      enMask := 0xFF#8
      initDone := true
      trace := s.trace ++ [.write (.w sscAddr sscOffValue), .write (.w oeAddr maskAllDisabled),
        .write (.w xtalAddr Config.xtalLoadValue), .write (.b pllaMsAddr pllaBlock), .write (.w rstAddr rstValue),
        .response 0#128]
      chip := deliver (deliver (deliver (deliver (deliver s.chip (.w sscAddr sscOffValue)) (.w oeAddr maskAllDisabled))
        (.w xtalAddr Config.xtalLoadValue)) (.b pllaMsAddr pllaBlock)) (.w rstAddr rstValue) } := by
  simp [initialise, updateMask, emit, respond, maskAllDisabled]

/-- What an accepted command can do: raise a fault, or one of the six effects of R87, R100, R120, R131, R133, R134. -/
theorem exec_cases {i : Instr} {s t : State} (h : exec i s = .next t) :
    (∃ code, t = raiseFault code s) ∨
    (i = .init ∧ s.initDone = false ∧ t = initialise s) ∨
    (∃ ch c fout f, i = .setfreq ch fout ∧ ch.toNat = channelIndex c ∧ s.initDone = true ∧ Serviceable fout.toNat ∧
      FitsP1 s.vcoRef.toNat fout.toNat ∧ packFields (computeDivider s.vcoRef fout) = some f ∧ t = programChannel c f s) ∨
    (∃ ch c fout, i = .setfreq ch fout ∧ ch.toNat = channelIndex c ∧ s.initDone = true ∧ ¬Serviceable fout.toNat ∧
      t = disableChannel c s) ∨
    (∃ vco, i = .setvco vco ∧ ¬(vco = 0#32 ∧ SomeEnabled s) ∧ t = respond .ok { s with vcoRef := vco }) ∨
    (∃ r, i = .setrdiv r ∧ t = respond .ok { s with rdiv := r }) ∨
    (∃ ch c code, i = .setdrive ch code ∧ ch.toNat = channelIndex c ∧ t = respond .ok (writeDrive c code s)) ∨
    (∃ fout, i = .compute fout ∧ Serviceable fout.toNat ∧
      t = respond (divisorResponse (computeDivider s.vcoRef fout)) s) := by
  cases i with
  | init =>
    simp only [exec, execInit] at h
    split at h <;> cases h
    · exact .inl ⟨_, rfl⟩
    · next hi => exact .inr (.inl ⟨rfl, by simpa using hi, rfl⟩)
  | setfreq ch fout =>
    simp only [exec, execSetfreq] at h
    split at h <;> cases h
    · exact .inl ⟨_, rfl⟩
    · next c hc =>
      have hch := channelOf_eq_some.1 hc
      by_cases hi : s.initDone = true
      · by_cases hr : Serviceable fout.toNat
        · by_cases hf : FitsP1 s.vcoRef.toNat fout.toNat
          · obtain ⟨f, hpk, he⟩ := setFrequency_programs c hi hr hf
            exact .inr (.inr (.inl ⟨ch, c, fout, f, rfl, hch, hi, hr, hf, hpk, he⟩))
          · exact .inl ⟨_, setFrequency_outOfField c hi hr hf⟩
        · exact .inr (.inr (.inr (.inl ⟨ch, c, fout, rfl, hch, hi, hr, setFrequency_outOfRange c hi hr⟩)))
      · exact .inl ⟨_, setFrequency_uninitialised c fout (by simpa using hi)⟩
  | setvco vco =>
    simp only [exec, execSetvco, anyEnabled_eq_true] at h
    split at h <;> cases h
    · exact .inl ⟨_, rfl⟩
    · next hv => exact .inr (.inr (.inr (.inr (.inl ⟨vco, rfl, hv, rfl⟩))))
  | setrdiv r =>
    cases h
    exact .inr (.inr (.inr (.inr (.inr (.inl ⟨r, rfl, rfl⟩)))))
  | setdrive ch code =>
    simp only [exec, execSetdrive] at h
    split at h <;> cases h
    · exact .inl ⟨_, rfl⟩
    · next c hc =>
      exact .inr (.inr (.inr (.inr (.inr (.inr (.inl ⟨ch, c, code, rfl, channelOf_eq_some.1 hc, rfl⟩))))))
  | compute fout =>
    simp only [exec, execCompute] at h
    split at h <;> cases h
    · next hr => exact .inr (.inr (.inr (.inr (.inr (.inr (.inr ⟨fout, rfl, (inRange_eq_true fout).1 hr, rfl⟩))))))
    · exact .inl ⟨_, rfl⟩

/-! The transcript. -/

@[simp] theorem transactionsOf_append (xs ys : List PortEvent) :
    transactionsOf (xs ++ ys) = transactionsOf xs ++ transactionsOf ys := by
  induction xs with
  | nil => rfl
  | cons x xs ih => cases x <;> simp [transactionsOf, ih]

@[simp] theorem responsesOf_append (xs ys : List PortEvent) :
    responsesOf (xs ++ ys) = responsesOf xs ++ responsesOf ys := by
  induction xs with
  | nil => rfl
  | cons x xs ih => cases x <;> simp [responsesOf, ih]

@[simp] theorem replay_append (xs ys : List Transaction) : replay (xs ++ ys) = ys.foldl deliver (replay xs) := by
  simp [replay]

/-! The step. -/

theorem step_waiting {s : State} (h : s.inputs = []) : step s = .next s := by
  simp [step, serve, h]

theorem step_reset {s : State} {rest : List HostInput} (h : s.inputs = .reset :: rest) :
    step s = .next (resetEvent { s with inputs := rest }) := by
  simp [step, serve, takeInput, h]

theorem step_stopped {s : State} {w : CmdWord} {rest : List HostInput} (h : s.inputs = .command w :: rest)
    (hf : s.fault = true) : step s = .next { s with inputs := rest } := by
  simp [step, serve, takeInput, offerCommand, h, hf]

theorem step_command {s : State} {w : CmdWord} {rest : List HostInput} (h : s.inputs = .command w :: rest)
    (hf : s.fault = false) : step s = runWord w { s with inputs := rest } := by
  simp [step, serve, takeInput, offerCommand, h, hf]

/-- What one step can do: wait, take the reset event, let an offer pass, reject a word, or run an instruction. -/
theorem step_cases {s t : State} (h : step s = .next t) :
    (s.inputs = [] ∧ t = s) ∨
    (∃ rest, s.inputs = .reset :: rest ∧ t = resetEvent { s with inputs := rest }) ∨
    (∃ w rest, s.inputs = .command w :: rest ∧ s.fault = true ∧ t = { s with inputs := rest }) ∨
    (∃ w rest why, s.inputs = .command w :: rest ∧ s.fault = false ∧ decode w = .rejected why ∧
      t = raiseFault why { s with inputs := rest }) ∨
    (∃ w rest i, s.inputs = .command w :: rest ∧ s.fault = false ∧ decode w = .instr i ∧
      exec i { s with inputs := rest } = .next t) := by
  match hin : s.inputs with
  | [] =>
    rw [step_waiting hin] at h
    cases h
    exact .inl ⟨rfl, rfl⟩
  | .reset :: rest =>
    rw [step_reset hin] at h
    cases h
    exact .inr (.inl ⟨rest, rfl, rfl⟩)
  | .command w :: rest =>
    by_cases hf : s.fault = true
    · rw [step_stopped hin hf] at h
      cases h
      exact .inr (.inr (.inl ⟨w, rest, rfl, hf, rfl⟩))
    · have hf' : s.fault = false := by simpa using hf
      rw [step_command hin hf', runWord] at h
      split at h
      · next i hd => exact .inr (.inr (.inr (.inr ⟨w, rest, i, rfl, hf', hd, h⟩)))
      · next why hd =>
        cases h
        exact .inr (.inr (.inr (.inl ⟨w, rest, why, rfl, hf', hd, rfl⟩)))

end Sys2Proof.Machine
end

