-- ==== Sys2Proof/Laws/Fields.lean ====
section
/-! SUPPORT. The enable mask's bits (R27, R114), and what unpacking a packed block gives (R117). -/

namespace Sys2Proof.Machine

/-- Setting or clearing a channel's bit leaves every other bit (R114). -/
theorem mask_other_bits (c : Channel) (m : BitVec 8) (n : Nat) (h : n ≠ channelIndex c) :
    (maskEnable c m).getLsbD n = m.getLsbD n ∧ (maskDisable c m).getLsbD n = m.getLsbD n := by
  by_cases hn : n < 8
  · have : ∀ m : BitVec 8, (maskEnable c m).getLsbD n = m.getLsbD n ∧ (maskDisable c m).getLsbD n = m.getLsbD n := by
      interval_cases n <;> cases c <;> first | exact absurd rfl h | decide
    exact this m
  · simp [BitVec.getLsbD_of_ge _ n (by omega : 8 ≤ n)]

/-- The reserved bits 7..3 are kept (R27). -/
theorem mask_reserved_bits (c : Channel) (m : BitVec 8) :
   (maskEnable c m).extractLsb' 3 5 = m.extractLsb' 3 5 ∧ (maskDisable c m).extractLsb' 3 5 = m.extractLsb' 3 5 := by
  cases c <;> revert m <;> decide

/-- What setting or clearing a channel's bit does to each channel's state (R28, R116). -/
theorem isEnabled_mask (c d : Channel) (m : BitVec 8) :
    isEnabled d (maskEnable c m) = (if d = c then true else isEnabled d m) ∧
      isEnabled d (maskDisable c m) = (if d = c then false else isEnabled d m) := by
  cases c <;> cases d <;> revert m <;> decide


/-- Setting or clearing a bit twice is doing it once. -/
theorem mask_twice (c : Channel) (m : BitVec 8) :
    maskEnable c (maskEnable c m) = maskEnable c m ∧
      maskDisable c (maskDisable c m) = maskDisable c m := by
  cases c <;> revert m <;> decide

/-- Unpacking gives back the fields that were packed, and bit 7 of byte 2 is 0 (R70, R117). -/
theorem multisynthBlock_unpacks (f : Packed) (r : BitVec 3) :
    unpackP1 (multisynthBlock f r) = f.p1 ∧ unpackP2 (multisynthBlock f r) = f.p2 ∧
    unpackP3 (multisynthBlock f r) = f.p3 ∧ unpackRdiv (multisynthBlock f r) = r ∧
    (multisynthBlock f r).b2.getLsbD 7 = false := by
  obtain ⟨p1, p2, p3⟩ := f
  have h1 := p1.isLt; have h2 := p2.isLt; have h3 := p3.isLt; have hr := r.isLt
  have e := multisynthBlock_eq r h1 h2 h3
  simp only [BitVec.ofNat_toNat, BitVec.setWidth_eq] at e
  rw [e]
  have hpw : (unpackPW (layoutBytes p1.toNat p2.toNat p3.toNat r.toNat)).toNat = r.toNat * 2^20 + p1.toNat := by
    simp only [unpackPW, layoutBytes]
    simp only [BitVec.toNat_append, BitVec.toNat_ofNat]
    rw [← Nat.shiftLeft_add_eq_or_of_lt (by omega), ← Nat.shiftLeft_add_eq_or_of_lt (by omega)]
    simp only [Nat.shiftLeft_eq]
    omega
  refine ⟨?_, ?_, ?_, ?_, ?_⟩
  · apply BitVec.eq_of_toNat_eq
    simp only [unpackP1, BitVec.extractLsb'_toNat, hpw, Nat.shiftRight_eq_div_pow]
    omega
  · apply BitVec.eq_of_toNat_eq
    simp only [unpackP2, layoutBytes]
    simp only [BitVec.toNat_append, BitVec.extractLsb'_toNat, BitVec.toNat_ofNat, Nat.shiftRight_eq_div_pow]
    rw [← Nat.shiftLeft_add_eq_or_of_lt (by omega), ← Nat.shiftLeft_add_eq_or_of_lt (by omega)]
    simp only [Nat.shiftLeft_eq]
    omega
  · apply BitVec.eq_of_toNat_eq
    simp only [unpackP3, layoutBytes]
    simp only [BitVec.toNat_append, BitVec.extractLsb'_toNat, BitVec.toNat_ofNat, Nat.shiftRight_eq_div_pow]
    rw [← Nat.shiftLeft_add_eq_or_of_lt (by omega), ← Nat.shiftLeft_add_eq_or_of_lt (by omega)]
    simp only [Nat.shiftLeft_eq]
    omega
  · apply BitVec.eq_of_toNat_eq
    simp only [unpackRdiv, BitVec.extractLsb'_toNat, hpw, Nat.shiftRight_eq_div_pow]
    omega
  · rw [BitVec.getLsbD, layoutBytes]
    apply Nat.testBit_lt_two_pow
    simp only [BitVec.toNat_ofNat]
    omega


end Sys2Proof.Machine
end

