-- ==== Sys2Proof/Laws/PerInstr.lean ====
section
/-! SUPPORT. Statements made per instruction. EncodedWord: the encoder's word meets its row's match and mask in
spec/opcode_table.json. -/

namespace Sys2Proof.Laws.EncodedWord

open Sys2Proof Sys2Proof.Machine

/-- The row's mask (spec/opcode_table.json). -/
def mask : Instr → CmdWord
  | .init => 0xFFFFFFFFFFFFFFFF#64
  | .setfreq _ _ => 0xFFFFFFFC00000000#64
  | .setvco _ => 0xFFFFFFFF00000000#64
  | .setrdiv _ => 0xFFFFFFFFFFFFFFF8#64
  | .setdrive _ _ => 0xFFFFFFFCFFFFFFFC#64
  | .compute _ => 0xFFFFFFFF00000000#64

/-- The row's match (spec/opcode_table.json). -/
def rowMatch : Instr → CmdWord
  | .init => 0x1000000000000000#64
  | .setfreq _ _ => 0x2000000000000000#64
  | .setvco _ => 0x3000000000000000#64
  | .setrdiv _ => 0x4000000000000000#64
  | .setdrive _ _ => 0x5000000000000000#64
  | .compute _ => 0x6000000000000000#64

/-- The encoded word's fixed bits are the row's. -/
def Statement (i : Instr) : Prop := encode i &&& mask i = rowMatch i

/-- The bits of a word with RSVD and its low bits masked away, from the fields. -/
theorem masked (op : BitVec 4) (ch : BitVec 2) (d : BitVec 32) (mch : BitVec 2) (md : BitVec 32) :
    packWord op ch d &&& (15#4 ++ (-1#26) ++ mch ++ md : BitVec 64) = packWord op (ch &&& mch) (d &&& md) := by
  have h1 : op &&& 15#4 = op := by revert op; decide
  change ((op ++ 0#26 ++ ch ++ d : BitVec (4 + 26 + 2 + 32)) &&& (15#4 ++ (-1#26) ++ mch ++ md)) = _
  rw [BitVec.and_append, BitVec.and_append, BitVec.and_append, h1, BitVec.zero_and]
  rfl

theorem init : Statement .init := by unfold Statement; decide

theorem setfreq (ch : BitVec 2) (fout : Freq) : Statement (.setfreq ch fout) := by
  have h := masked opSetfreq ch fout 0#2 0#32
  simp only [BitVec.and_zero] at h
  exact h

theorem setvco (vco : Freq) : Statement (.setvco vco) := by
  have h := masked opSetvco 0#2 vco 3#2 0#32
  simp only [BitVec.and_zero, BitVec.zero_and] at h
  exact h

theorem setrdiv (r : BitVec 3) : Statement (.setrdiv r) := by
  unfold Statement; revert r; decide

theorem setdrive (ch : BitVec 2) (code : BitVec 2) : Statement (.setdrive ch code) := by
  unfold Statement; revert ch code; decide

theorem compute (fout : Freq) : Statement (.compute fout) := by
  have h := masked opCompute 0#2 fout 3#2 0#32
  simp only [BitVec.and_zero, BitVec.zero_and] at h
  exact h

end Sys2Proof.Laws.EncodedWord
end

