-- ==== Sys2Proof/Tests/Slice0.lean ====
section
/-! SUPPORT. Small tests with expected values from the spec (mostly 95_test_vectors.md), the WellFormed smoke test, and a
witness for the hypotheses of each statement that has some. -/

namespace Sys2Proof.Tests

open Sys2Proof Sys2Proof.Machine

/-! WellFormed: the one check is the channel operand. -/

theorem test_setfreq_channel_three_ill_formed : Instr.wellFormed (.setfreq 3#2 1000000#32) = false := by decide
theorem test_setdrive_channel_three_ill_formed : Instr.wellFormed (.setdrive 3#2 1#2) = false := by decide
theorem test_setfreq_channel_two_well_formed : Instr.wellFormed (.setfreq 2#2 0#32) = true := by decide

/-! Decoding: words written out from OP[63:60] RSVD[59:34] CH[33:32] DATA[31:0] (R62, R64, R77). -/

theorem test_decode_init :
    decode (0b0001#4 ++ 0b00000000000000000000000000#26 ++ 0b00#2 ++ 0b00000000000000000000000000000000#32) =
      .instr .init := by decide

theorem test_decode_setfreq : decode 0x2000000200D6C090#64 = .instr (.setfreq 2#2 14074000#32) := by decide

theorem test_decode_setvco : decode 0x3000000034276AE4#64 = .instr (.setvco 874998500#32) := by decide

theorem test_decode_setrdiv : decode 0x4000000000000007#64 = .instr (.setrdiv 7#3) := by decide

theorem test_decode_setdrive : decode 0x5000000200000003#64 = .instr (.setdrive 2#2 3#2) := by decide

theorem test_decode_compute : decode 0x6000000000989680#64 = .instr (.compute 10000000#32) := by decide

/-- Section 2.4: opcode before reserved bits. -/
theorem test_decode_opcode_first : decode 0xF000000400000000#64 = .rejected .illegalOpcode := by decide

/-- Section 2.4: reserved bits before the channel. -/
theorem test_decode_reserved_before_channel : decode 0x20000007000F4240#64 = .rejected .reservedBits := by decide

theorem test_decode_setrdiv_eight : decode 0x4000000000000008#64 = .rejected .reservedBits := by decide

theorem test_decode_setvco_channel : decode 0x30000001342770C0#64 = .rejected .reservedBits := by decide

theorem test_table_word_channel_three :
    decodeTableWord 64 0x20000003000F4240 = some (.setfreq 3#2 1000000#32) := by decide

/-! The calculator: section 2.1. -/

theorem test_compute_2897351 :
    computeDivider 875000000#32 2897351#32 = { a := 301, b := 724337, c := 724337 } := by decide

theorem test_compute_109000000 :
    computeDivider 875000000#32 109000000#32 = { a := 8, b := 23437, c := 851562 } := by decide

/-! One command each. -/

/-- The engine after INIT, nothing recorded. -/
def ready : State := { State.reset with initDone := true }

/-- The next state of an outcome, where there is one. -/
def nextOf : Host.Outcome State Fault Refusal → Option State
  | .next t => some t
  | .fault _ => none
  | .refused _ => none

/-- Section 2.2, fout = 7_150_123 on channel 1. -/
theorem test_setfreq_packs :
    (nextOf (exec (.setfreq 1#2 7150123#32) ready)).map (fun t => (t.enMask, transactionsOf t.trace)) =
      some (0xFD#8,
        [.b 50#8 ⟨0xA3#8, 0x45#8, 0x00#8, 0x3B#8, 0x30#8, 0xD0#8, 0xE7#8, 0x10#8⟩, .w 17#8 0x0D#8, .w 3#8 0xFD#8]) := by
  decide

/-- Section 2.2, P1 field limits: v = 435_999_900 gives p1 = −1. -/
theorem test_setfreq_out_of_field :
    (nextOf (exec (.setfreq 0#2 109000000#32) { ready with vcoRef := 435999900#32 })).map
      (fun t => (status t, t.enMask, transactionsOf t.trace)) = some (0b10111#5, 0xFF#8, []) := by decide

/-- Section 2.2, P1 field limits: v = 4_097_999_999 gives p1 = 1_048_575. -/
theorem test_pack_largest_p1 :
    (packFields (computeDivider 4097999999#32 500000#32)).map (fun f => multisynthBlock f 0#3) =
      some ⟨0xA1#8, 0x20#8, 0x0F#8, 0xFF#8, 0xFF#8, 0x77#8, 0xA0#8, 0xA0#8⟩ := by decide

/-- P3: SETRDIV 3, then 1_000_000: the block carries exponent 3. -/
theorem test_setrdiv_exponent_in_block :
    (packFields (computeDivider 875000000#32 1000000#32)).map (fun f => multisynthBlock f 3#3) =
      some ⟨0x42#8, 0x40#8, 0x31#8, 0xB3#8, 0x80#8, 0xF0#8, 0x00#8, 0x00#8⟩ := by decide

/-- Section 2.3: INIT from reset. -/
theorem test_init_sequence :
    (nextOf (exec .init State.reset)).map (fun t => transactionsOf t.trace) =
      some [.w 149#8 0x00#8, .w 3#8 0xFF#8, .w 183#8 Config.xtalLoadValue,
        .b 26#8 ⟨0x00#8, 0x01#8, 0x00#8, 0x0F#8, 0x80#8, 0x00#8, 0x00#8, 0x00#8⟩, .w 177#8 0x20#8] := rfl

/-- Section 2.3: a second INIT. -/
theorem test_init_twice :
    (nextOf (exec .init ready)).map (fun t => (status t, transactionsOf t.trace)) = some (0b10101#5, []) := by decide

/-- Section 2.3: SETVCO 0 with channel 0 enabled. -/
theorem test_setvco_zero_enabled :
    (nextOf (exec (.setvco 0#32) { ready with enMask := 0xFE#8 })).map (fun t => (status t, t.vcoRef)) =
      some (0b11000#5, 875000000#32) := by decide

/-- Section 2.3: SETDRIVE 2, 3. -/
theorem test_setdrive_two :
    (nextOf (exec (.setdrive 2#2 3#2) State.reset)).map (fun t => (t.drive0, t.drive1, t.drive2)) =
      some (1#2, 1#2, 3#2) := by decide

/-- Section 2.1: COMPUTE 7_150_123 answers RESULT(122, 335_624, 893_765); the word by R68. -/
theorem test_compute_response :
    (nextOf (exec (.compute 7150123#32) State.reset)).map (fun t => responsesOf t.trace) =
      some [0x400000000000007A00051F08000DA345#128] := by decide

/-- Section 2.1: COMPUTE 499_999. -/
theorem test_compute_out_of_range :
    (nextOf (exec (.compute 499999#32) State.reset)).map (fun t => (status t, responsesOf t.trace)) =
      some (0b10110#5, [0x80000006000000000000000000000000#128]) := by decide

/-- P6, first line: SETFREQ before INIT, through the step. -/
theorem test_step_setfreq_before_init :
    (nextOf (step (State.reset.withFetchWord 64 0x2000000000989680))).map status = some 0b10100#5 := by decide

/-- P6, second line: the stopped engine does not accept INIT. -/
theorem test_step_stopped :
    (nextOf (step ({ State.reset with fault := true, faultCode := 4#4 }.withFetchWord 64 0x1000000000000000))).map
      (fun t => (t.initDone, t.trace)) = some (false, []) := by decide

/-- R70: the chip's byte 2 of channel 2's block is register 60. -/
theorem test_chip_register_sixty :
    (nextOf (exec (.setfreq 2#2 1000000#32) { ready with rdiv := 3#3 })).map (fun t => t.chipByte 60) =
      some (some 0x31#8) := by decide

/-! The assembler: R75, R76, R77. -/

theorem test_parse_setfreq :
    parseLine ['S', 'E', 'T', 'F', 'R', 'E', 'Q', ' ', '0', ',', ' ', '7', '_', '1', '5', '0', '_', '1', '2', '3'] =
      some (.setfreq 0 7150123) := by decide

theorem test_parse_hexadecimal :
    parseLine ['S', 'E', 'T', 'V', 'C', 'O', ' ', '0', 'x', '3', '4', '2', '7', '7', '0', 'C', '0'] =
      some (.setvco 875000000) := by decide

theorem test_parse_milliamps :
    parseLine ['S', 'E', 'T', 'D', 'R', 'I', 'V', 'E', ' ', '2', ',', ' ', '8', 'm', 'A'] = some (.setdriveMa 2 8) := by
  decide

theorem test_assemble_milliamps : assembleWords (.setdriveMa 2 8) = some [0x5000000200000003#64] := by decide

theorem test_assemble_refuses_exponent_eight : assembleWords (.setrdiv 8) = none := by decide

/-! Witnesses: for each statement with hypotheses, a state and operands that meet them all. -/

/-- A state with the given inputs, the rest as after reset. -/
def offered (xs : List HostInput) : State := { State.reset with inputs := xs }

theorem witness_EncodeUndoesDecode : decode 0x1000000000000000#64 = .instr .init := by decide

theorem witness_OperandsAreTheFields :
    (decode 0x1000000000000000#64 = .instr .init) ∧
    (decode 0x20000003FFFFFFFF#64 = .instr (.setfreq 3#2 0xFFFFFFFF#32)) ∧
    (decode 0x30000000FFFFFFFF#64 = .instr (.setvco 0xFFFFFFFF#32)) ∧
    (decode 0x4000000000000007#64 = .instr (.setrdiv 7#3)) ∧
    (decode 0x5000000300000003#64 = .instr (.setdrive 3#2 3#2)) ∧
    (decode 0x60000000FFFFFFFF#64 = .instr (.compute 0xFFFFFFFF#32)) := by decide

theorem witness_AssembledLinesFit :
    (3 ≤ 3 ∧ 4294967295 < 2 ^ 32) ∧ ¬(4 ≤ 3 ∧ 4294967295 < 2 ^ 32) ∧ ¬(3 ≤ 3 ∧ 4294967296 < 2 ^ 32) ∧
    ¬(4294967296 < 2 ^ 32) ∧ 7 ≤ 7 ∧ ¬(8 ≤ 7) ∧ ¬(3 ≤ 3 ∧ 4 ≤ 3) ∧ ¬(3 = 2 ∨ 3 = 4 ∨ 3 = 6 ∨ 3 = 8) ∧
    (3 ≤ 3 ∧ 4294967295 < 2 ^ 32 ∧ 7 ≤ 7) ∧ ¬(3 ≤ 3 ∧ 4294967295 < 2 ^ 32 ∧ 8 ≤ 7) ∧
    ¬(4 ≤ 3 ∧ 4294967295 < 2 ^ 32 ∧ 7 ≤ 7) ∧ ¬(3 ≤ 3 ∧ 4294967296 < 2 ^ 32 ∧ 7 ≤ 7) ∧
    assembleWords (.setrdiv 7) = some [0x4000000000000007#64] ∧
    assembleWords (.setfreq 3 0) = some [0x2000000300000000#64] := by decide

theorem witness_StepRunsDecodedInstruction :
    (offered [.command 0x4000000000000003#64, .reset]).inputs = .command 0x4000000000000003#64 :: [.reset] ∧
    (offered [.command 0x4000000000000003#64, .reset]).fault = false ∧
    decode 0x4000000000000003#64 = .instr (.setrdiv 3#3) := by decide

theorem witness_FetchedTableWordRuns :
    State.reset.fault = false ∧ decodeTableWord 64 0x1000000000000000 = some .init := by decide

theorem witness_EngineWaitsForCommand : State.reset.inputs = [] := rfl

theorem witness_ReservedOpcodeFaults :
    (0x0000000000000000#64).toNat / 2 ^ 60 = 0 ∧
    (7 ≤ (0x7000000000000000#64).toNat / 2 ^ 60 ∧ (0x7000000000000000#64).toNat / 2 ^ 60 ≤ 15) ∧
    (7 ≤ (0xF000000000000000#64).toNat / 2 ^ 60 ∧ (0xF000000000000000#64).toNat / 2 ^ 60 ≤ 15) := by decide

theorem witness_ChannelThreeFaults :
    (wordOp 0x20000003000F4240#64 = 2 ∧ wordCh 0x20000003000F4240#64 = 3 ∧ ¬ReservedBitsSet 0x20000003000F4240#64) ∧
    (wordOp 0x5000000300000001#64 = 5 ∧ wordCh 0x5000000300000001#64 = 3 ∧ ¬ReservedBitsSet 0x5000000300000001#64) := by
  decide

theorem witness_ReservedBitsFault :
    wordRsvd 0x2000000400989680#64 ≠ 0 ∧ wordRsvd 0x2800000000000000#64 ≠ 0 ∧
    (wordOp 0x30000001342770C0#64 = 3 ∧ wordCh 0x30000001342770C0#64 ≠ 0) ∧
    (wordOp 0x1000000000000001#64 = 1 ∧ wordData 0x1000000000000001#64 ≠ 0) ∧
    (wordOp 0x4000000000000008#64 = 4 ∧ wordData 0x4000000000000008#64 / 8 ≠ 0) ∧
    (wordOp 0x5000000000000004#64 = 5 ∧ wordData 0x5000000000000004#64 / 4 ≠ 0) := by decide

/-- One word and state for each of the eight faults, in the order of R154, and one for none. -/
theorem witness_FirstApplicableFaultReported :
    firstFault 0xF000000400000000#64 State.reset = some 1#4 ∧
    firstFault 0x20000007000F4240#64 State.reset = some 2#4 ∧
    firstFault 0x20000003000F4240#64 State.reset = some 3#4 ∧
    firstFault 0x2000000000989680#64 State.reset = some 4#4 ∧
    firstFault 0x1000000000000000#64 ready = some 5#4 ∧
    firstFault 0x600000000007A11F#64 State.reset = some 6#4 ∧
    firstFault 0x200000000007A120#64 { ready with vcoRef := 4098000000#32 } = some 7#4 ∧
    firstFault 0x3000000000000000#64 { ready with enMask := 0xFE#8 } = some 8#4 ∧
    firstFault 0x2000000000989680#64 ready = none ∧
    ∃ t, step (offered [.command 0xF000000400000000#64]) = .next t :=
  ⟨by decide, by decide, by decide, by decide, by decide, by decide, by decide, by decide, by decide, ⟨_, rfl⟩⟩

theorem witness_FaultingCommandChangesNothingElse :
    ∃ t, ready.fault = false ∧ exec .init ready = .next t ∧ t.fault = true := ⟨_, rfl, rfl, rfl⟩

/-- A stopped engine that is offered a command, and one that is reset and so leaves FAULT. -/
theorem witness_StoppedUntilReset :
    (∃ s : State, s.fault = true ∧ s.inputs = .command 0x1000000000000000#64 :: []) ∧
    (∃ s t : State, s.fault = true ∧ step s = .next t ∧ t.fault = false) :=
  ⟨⟨{ offered [.command 0x1000000000000000#64] with fault := true, faultCode := 4#4 }, rfl, rfl⟩,
   ⟨{ offered [.reset] with fault := true, faultCode := 4#4 }, _, rfl, rfl, rfl⟩⟩

theorem witness_TransactionsThenOneResponse : ∃ t, exec .init State.reset = .next t := ⟨_, rfl⟩

theorem witness_ResetStateValues : State.reset = State.reset ∧ resetEvent ready = resetEvent ready := ⟨rfl, rfl⟩

theorem witness_ResetEventSetsRegisters : (offered [.reset]).inputs = .reset :: [] := rfl

theorem witness_BlockIsEightWrites : 42 + 7 < 256 ∧ 248 + 7 < 256 := by decide

theorem witness_NormalizationIsOneShift :
    (1#32 : Freq) ≠ 0#32 ∧ (1048575#32 : Freq).toNat < 2 ^ 20 ∧ ¬(1048576#32 : Freq).toNat < 2 ^ 20 ∧
    (109000000#32 : Freq).toNat ≤ 109000000 := by decide

theorem witness_DividerRanges :
    Serviceable (500000#32 : Freq).toNat ∧ Serviceable (109000000#32 : Freq).toNat := by decide

theorem witness_UnshiftedDividerIsExact :
    0 < (1048575#32 : Freq).toNat ∧ (1048575#32 : Freq).toNat < 2 ^ 20 ∧ 0 < (875000000#32 : Freq).toNat := by decide

theorem witness_NominalDividerFits : Serviceable (2897351#32 : Freq).toNat := by decide

/-- One divider with b < c and one with b = c, both packed. -/
theorem witness_BlockUnpacksToDivider :
    (Serviceable (7150123#32 : Freq).toNat ∧ (packFields (computeDivider 875000000#32 7150123#32)).isSome = true ∧
      (computeDivider 875000000#32 7150123#32).b < (computeDivider 875000000#32 7150123#32).c) ∧
    (Serviceable (2897351#32 : Freq).toNat ∧ (packFields (computeDivider 875000000#32 2897351#32)).isSome = true ∧
      (computeDivider 875000000#32 2897351#32).b = (computeDivider 875000000#32 2897351#32).c) := by decide

theorem witness_ComputeAnswersResult : Serviceable (500000#32 : Freq).toNat := by decide

theorem witness_ComputeOutOfRangeFaults :
    (499999#32 : Freq).toNat < 500000 ∧ 109000000 < (109000001#32 : Freq).toNat := by decide

/-- Both ends of the serviceable range at the nominal VCO, and P1 at 0 (v = 436_000_000) and at 2^20 − 1. -/
theorem witness_SetfreqProgramsChannel :
    ready.initDone = true ∧
    (Serviceable (500000#32 : Freq).toNat ∧ FitsP1 ready.vcoRef.toNat (500000#32 : Freq).toNat) ∧
    (Serviceable (109000000#32 : Freq).toNat ∧ FitsP1 ready.vcoRef.toNat (109000000#32 : Freq).toNat) ∧
    FitsP1 436000000 109000000 ∧ FitsP1 4097999999 500000 := by decide

theorem witness_SetfreqOutOfRangeDisables :
    ready.initDone = true ∧ (0#32 : Freq).toNat < 500000 ∧ 109000000 < (109000001#32 : Freq).toNat := by decide

theorem witness_SetfreqBeforeInitFaults : State.reset.initDone = false := rfl

theorem witness_SetfreqOutOfFieldFaults :
    ready.initDone = true ∧ Serviceable (109000000#32 : Freq).toNat ∧
    ¬FitsP1 (435999900#32 : Freq).toNat (109000000#32 : Freq).toNat ∧
    ¬FitsP1 (4098000000#32 : Freq).toNat (500000#32 : Freq).toNat := by decide

theorem witness_NominalSetfreqNeverFaults : ready.initDone = true ∧ ready.vcoRef = 875000000#32 := by decide

/-- Both ends of the out-of-range path, and an in-range request. -/
theorem witness_SetfreqEmissionOrder :
    (∃ t, exec (.setfreq (BitVec.ofNat 2 (channelIndex .ch0)) 499999#32) ready = .next t ∧ t.fault = false) ∧
    (∃ t, exec (.setfreq (BitVec.ofNat 2 (channelIndex .ch0)) 500000#32) ready = .next t ∧ t.fault = false) ∧
    ready.fault = false ∧ ¬Serviceable (499999#32 : Freq).toNat ∧ Serviceable (500000#32 : Freq).toNat :=
  ⟨⟨_, rfl, rfl⟩, ⟨_, rfl, rfl⟩, rfl, by decide, by decide⟩

/-- An existing channel, and the operand 3. -/
theorem witness_SetfreqFrame :
    (∃ t, exec (.setfreq 2#2 0#32) ready = .next t) ∧ channelOf 2#2 = some .ch2 ∧
    (∃ t, exec (.setfreq 3#2 0#32) ready = .next t) ∧ channelOf 3#2 = none := ⟨⟨_, rfl⟩, rfl, ⟨_, rfl⟩, rfl⟩

theorem witness_ChannelsAreIsolated :
    Channel.ch0 ≠ Channel.ch2 ∧ ∃ t, exec (.setfreq (BitVec.ofNat 2 (channelIndex .ch0)) 0#32) ready = .next t :=
  ⟨by decide, ⟨_, rfl⟩⟩

theorem witness_SetfreqIsIdempotent :
    ∃ t u, exec (.setfreq (BitVec.ofNat 2 (channelIndex .ch0)) 0#32) ready = .next t ∧
      exec (.setfreq (BitVec.ofNat 2 (channelIndex .ch0)) 0#32) t = .next u := ⟨_, _, rfl, rfl⟩

theorem witness_SetfreqxPacksItsExponent :
    ready.initDone = true ∧ Serviceable (1000000#32 : Freq).toNat ∧
    FitsP1 ready.vcoRef.toNat (1000000#32 : Freq).toNat := by decide

/-- INIT, both paths of SETFREQ, SETRDIV, and a fault. -/
theorem witness_ChannelStateTransitions :
    (∃ t, exec .init State.reset = .next t ∧ t.fault = false) ∧
    (∃ t, exec (.setfreq 1#2 0#32) ready = .next t ∧ t.fault = false) ∧
    (∃ t, exec (.setrdiv 1#3) ready = .next t ∧ t.fault = false) ∧
    (∃ t, exec .init ready = .next t ∧ t.fault = true) ∧ ready.fault = false ∧ State.reset.fault = false :=
  ⟨⟨_, rfl, rfl⟩, ⟨_, rfl, rfl⟩, ⟨_, rfl, rfl⟩, ⟨_, rfl, rfl⟩, rfl, rfl⟩

theorem witness_InitWritesSequence : State.reset.initDone = false := rfl

theorem witness_SecondInitFaults : ready.initDone = true := rfl

theorem witness_InitRegistersWrittenOnce :
    ∃ t, ready.initDone = true ∧ step ready = .next t ∧ ∀ rest, ready.inputs ≠ .reset :: rest :=
  ⟨_, rfl, rfl, by simp [ready, State.reset]⟩

/-- A nonzero value with a channel enabled, and 0 with every channel disabled. -/
theorem witness_SetvcoSetsReference :
    ¬((1#32 : Freq) = 0#32 ∧ SomeEnabled { ready with enMask := 0xFE#8 }) ∧
    ¬((0#32 : Freq) = 0#32 ∧ SomeEnabled ready) := by decide

/-- Each of the three channels enabled alone. -/
theorem witness_SetvcoZeroWhileEnabledFaults :
    SomeEnabled { ready with enMask := 0xFE#8 } ∧ SomeEnabled { ready with enMask := 0xFD#8 } ∧
    SomeEnabled { ready with enMask := 0xFB#8 } := by decide

theorem witness_ConfigurationEmitsNothing :
    ∃ t, Instr.setrdiv 7#3 ≠ .init ∧ (∀ ch fout, Instr.setrdiv 7#3 ≠ .setfreq ch fout) ∧
      exec (.setrdiv 7#3) ready = .next t := ⟨_, by decide, by simp, rfl⟩

theorem witness_RegistersHaveTheirWriters :
    ∃ t, exec (.compute 500000#32) ready = .next t ∧ (∀ v, Instr.compute 500000#32 ≠ .setvco v) ∧
      Instr.compute 500000#32 ≠ .init := ⟨_, rfl, by simp, by simp⟩

/-- An engine with any inputs and the rest as after reset keeps the engine's rules. -/
theorem engineInv_offered (xs : List HostInput) : EngineInv (offered xs) where
  reservedOnes := by show State.reset.enMask.extractLsb' 3 5 = _; decide
  vcoNonzero := by show SomeEnabled State.reset → State.reset.vcoRef ≠ _; decide
  enabledAfterInit := by show SomeEnabled State.reset → State.reset.initDone = _; decide
  faultCodeNamed := ⟨⟨fun _ => rfl, fun _ => rfl⟩, Nat.zero_le 8⟩
  chipCanonical := rfl
  chipMapped := by intro a h; exact absurd rfl h
  chipReplayed := rfl
  maskDelivered := by intro h; cases h

/-- INIT offered after reset: a step with transactions, INIT's own among them. -/
theorem witness_OnlyMappedRegistersWritten :
    EngineInv (offered [.command 0x1000000000000000#64]) ∧
    ∃ t, step (offered [.command 0x1000000000000000#64]) = .next t := ⟨engineInv_offered _, ⟨_, rfl⟩⟩

theorem witness_ChipContentNeverRead :
    ∃ t, step (offered [.command 0x1000000000000000#64]) = .next t := ⟨_, rfl⟩

theorem witness_StepKeepsEngineRules :
    EngineInv (offered [.command 0x1000000000000000#64]) ∧
    ∃ t, step (offered [.command 0x1000000000000000#64]) = .next t := ⟨engineInv_offered _, ⟨_, rfl⟩⟩

end Sys2Proof.Tests
end

/-! The engine's invariant (O54) and the writers of its registers (O50). -/

namespace Sys2Proof.Machine

/-! What a transaction of the register map does to the chip's image (R43, R44). -/

theorem mappedRegister_of_inRegisterMap_w {addr v : Byte} (h : inRegisterMap (.w addr v)) :
    mappedRegister addr.toNat := by
  rcases h with ⟨rfl, -⟩ | ⟨rfl | rfl | rfl, -⟩ | ⟨rfl, -⟩ | ⟨rfl, -⟩ | ⟨rfl, -⟩ <;> simp [mappedRegister]

/-- A block of the map lies above register 3, does not pass register 255, and covers registers of the map only. -/
theorem mappedRegister_of_inRegisterMap_b {addr : Byte} {d : Block} (h : inRegisterMap (.b addr d)) :
    3 < addr.toNat ∧ addr.toNat + 7 < 256 ∧
      ∀ x, addr.toNat ≤ x ∧ x ≤ addr.toNat + 7 → mappedRegister x := by
  rcases h with ⟨rfl, -⟩ | ⟨rfl | rfl | rfl, -⟩ <;> simp [mappedRegister] <;> omega

/-- A transaction of the map makes registers of the map known and no others. -/
theorem read_deliver_mapped {t : Transaction} (ht : inRegisterMap t) {m : Memory} {a : Nat}
    (ha : Memory.read (deliver m t) a ≠ none) : mappedRegister a ∨ Memory.read m a ≠ none := by
  cases t with
  | w addr v =>
    rw [read_deliver_w] at ha
    split at ha
    · next hx => exact .inl (hx ▸ mappedRegister_of_inRegisterMap_w ht)
    · exact .inr ha
  | b addr d =>
    obtain ⟨-, hfit, hmap⟩ := mappedRegister_of_inRegisterMap_b ht
    rw [read_deliver_b _ _ _ _ hfit] at ha
    split at ha
    · next hx => exact .inl (hmap a hx)
    · exact .inr ha

/-- Of the map's transactions only the write to OE_ADDR reaches the mask's register (R44). -/
theorem read_deliver_oeAddr {t : Transaction} (ht : inRegisterMap t) (hoe : ∀ v, t ≠ .w oeAddr v) (m : Memory) :
    Memory.read (deliver m t) 3 = Memory.read m 3 := by
  cases t with
  | w addr v =>
    have h3 : ¬3 = addr.toNat := by
      intro h
      obtain rfl : oeAddr = addr := BitVec.eq_of_toNat_eq h
      exact hoe v rfl
    rw [read_deliver_w, if_neg h3]
  | b addr d =>
    obtain ⟨hlo, hfit, -⟩ := mappedRegister_of_inRegisterMap_b ht
    rw [read_deliver_b _ _ _ _ hfit, if_neg (by omega)]

/-! The transactions the commands emit are transactions of the map (R44, R70, R71, R120). -/

theorem inRegisterMap_mask {m : BitVec 8} (h : m.extractLsb' 3 5 = 0b11111#5) : inRegisterMap (.w oeAddr m) :=
  .inl ⟨rfl, h⟩

theorem ctrlAddr_ne_oeAddr (c : Channel) : ctrlAddr c ≠ oeAddr := by cases c <;> decide

theorem inRegisterMap_control (c : Channel) (d : BitVec 2) : inRegisterMap (.w (ctrlAddr c) (controlByte d)) := by
  have hd : (controlByte d).extractLsb' 2 6 = 0b000011#6 := by revert d; decide
  have hc : ctrlAddr c = 16#8 ∨ ctrlAddr c = 17#8 ∨ ctrlAddr c = 18#8 := by cases c <;> decide
  exact .inr (.inl ⟨hc, hd⟩)

theorem inRegisterMap_multisynth (c : Channel) (f : Packed) (r : BitVec 3) :
    inRegisterMap (.b (msAddr c) (multisynthBlock f r)) := by
  obtain ⟨-, -, -, -, hb2⟩ := multisynthBlock_unpacks f r
  have hc : msAddr c = 42#8 ∨ msAddr c = 50#8 ∨ msAddr c = 58#8 := by cases c <;> decide
  exact .inr ⟨hc, hb2⟩

theorem inRegisterMap_ssc : inRegisterMap (.w sscAddr sscOffValue) := .inr (.inr (.inl ⟨rfl, rfl⟩))

theorem inRegisterMap_rst : inRegisterMap (.w rstAddr rstValue) := .inr (.inr (.inr (.inl ⟨rfl, rfl⟩)))

theorem inRegisterMap_xtal : inRegisterMap (.w xtalAddr Config.xtalLoadValue) :=
  .inr (.inr (.inr (.inr ⟨rfl, rfl⟩)))

theorem inRegisterMap_plla : inRegisterMap (.b pllaMsAddr pllaBlock) := .inl ⟨rfl, rfl⟩

/-! When a channel is enabled (R28). -/

theorem isEnabled_eq_true {c : Channel} {m : BitVec 8} :
    isEnabled c m = true ↔ m.getLsbD (channelIndex c) = false := by
  rw [isEnabled, Bool.not_eq_true']

theorem someEnabled_iff (s : State) : SomeEnabled s ↔ ∃ c, isEnabled c s.enMask = true := by
  constructor
  · rintro (h | h | h)
    · exact ⟨.ch0, isEnabled_eq_true.2 h⟩
    · exact ⟨.ch1, isEnabled_eq_true.2 h⟩
    · exact ⟨.ch2, isEnabled_eq_true.2 h⟩
  · rintro ⟨c, h⟩
    rw [isEnabled_eq_true] at h
    cases c with
    | ch0 => exact .inl h
    | ch1 => exact .inr (.inl h)
    | ch2 => exact .inr (.inr h)

/-- Shutting a channel off enables none (R103). -/
theorem someEnabled_of_maskDisable {s : State} (c : Channel)
    (h : SomeEnabled { s with enMask := maskDisable c s.enMask }) : SomeEnabled s := by
  obtain ⟨d, hd⟩ := (someEnabled_iff _).1 h
  rw [(isEnabled_mask c d s.enMask).2] at hd
  split at hd
  · cases hd
  · exact (someEnabled_iff s).2 ⟨d, hd⟩

theorem not_someEnabled_of_allDisabled {s : State} (h : s.enMask = maskAllDisabled) : ¬SomeEnabled s := by
  rw [SomeEnabled, h]
  decide

/-- With VCO_REF = 0 no P1 fits its field: SETFREQ faults before it enables a channel (R24, R106). -/
theorem vcoRef_ne_zero_of_fitsP1 {vco : Freq} {fout : Nat} (h : FitsP1 vco.toNat fout) : vco ≠ 0#32 := by
  rintro rfl
  simp [FitsP1, closedP1Plus512, closedDivider] at h

/-! The shared operations keep the invariant. -/

namespace EngineInv

variable {s : State}

protected theorem respond (h : EngineInv s) (r : Response) : EngineInv (respond r s) :=
  { h with chipReplayed := by simpa [transactionsOf] using h.chipReplayed }

protected theorem raiseFault (h : EngineInv s) (code : FaultCode) : EngineInv (raiseFault code s) := by
  have hcode : ((faultCodeBits code = 0#4) ↔ (true = false)) ∧ (faultCodeBits code).toNat ≤ 8 := by
    cases code <;> decide
  exact EngineInv.respond (s := { s with fault := true, faultCode := faultCodeBits code })
    { h with faultCodeNamed := hcode } _

/-- Emitting a transaction of the map with EN_MASK set to what register 3 then holds; the mask may enable a channel only
when INIT is done and VCO_REF > 0. -/
protected theorem emitWithMask (h : EngineInv s) {t : Transaction} {m : BitVec 8} (ht : inRegisterMap t)
    (hm : m.extractLsb' 3 5 = 0b11111#5)
    (hen : SomeEnabled { s with enMask := m } → s.vcoRef ≠ 0#32 ∧ s.initDone = true)
    (h3 : s.initDone = true → Memory.read (deliver s.chip t) 3 = some m) :
    EngineInv (emit t { s with enMask := m }) :=
  { h with
    reservedOnes := hm
    vcoNonzero := fun he => (hen he).1
    enabledAfterInit := fun he => (hen he).2
    chipCanonical := Memory.wf_deliver t h.chipCanonical
    chipMapped := fun a ha => (read_deliver_mapped ht ha).elim id (h.chipMapped a)
    chipReplayed := by simp [transactionsOf, ← h.chipReplayed]
    maskDelivered := h3 }

/-- Any transaction of the map but the mask's write leaves EN_MASK and register 3 as they are. -/
protected theorem emit (h : EngineInv s) {t : Transaction} (ht : inRegisterMap t) (hoe : ∀ v, t ≠ .w oeAddr v) :
    EngineInv (emit t s) :=
  h.emitWithMask ht h.reservedOnes (fun he => ⟨h.vcoNonzero he, h.enabledAfterInit he⟩)
    fun hi => (read_deliver_oeAddr ht hoe s.chip).trans (h.maskDelivered hi)

/-- The mask's write sets EN_MASK and register 3 together (R114). -/
protected theorem updateMask (h : EngineInv s) {m : BitVec 8} (hm : m.extractLsb' 3 5 = 0b11111#5)
    (hen : SomeEnabled { s with enMask := m } → s.vcoRef ≠ 0#32 ∧ s.initDone = true) :
    EngineInv (updateMask m s) :=
  h.emitWithMask (inRegisterMap_mask hm) hm hen fun _ => by simp [oeAddr]

/-- The reset event disables every channel and keeps the records (R170, R171). -/
protected theorem resetEvent (h : EngineInv s) : EngineInv (resetEvent s) :=
  have hoff : ¬SomeEnabled (resetEvent s) := not_someEnabled_of_allDisabled rfl
  { h with
    reservedOnes := by show State.reset.enMask.extractLsb' 3 5 = _; decide
    vcoNonzero := fun he => absurd he hoff
    enabledAfterInit := fun he => absurd he hoff
    faultCodeNamed := ⟨⟨fun _ => rfl, fun _ => rfl⟩, Nat.zero_le 8⟩
    maskDelivered := fun hi => by cases hi }

/-- What the host still has to offer plays no part. -/
protected theorem withInputs (h : EngineInv s) (xs : List HostInput) : EngineInv { s with inputs := xs } := { h with }

/-- INIT_DONE is set once register 3 holds the mask (R120). -/
protected theorem withInitDone (h : EngineInv s) (h3 : s.chipByte 3 = some s.enMask) :
    EngineInv { s with initDone := true } :=
  { h with
    enabledAfterInit := fun _ => rfl
    maskDelivered := fun _ => h3 }

/-! The commands keep the invariant. -/

/-- INIT writes the mask once, and none of its later transactions reaches register 3 (R120). -/
protected theorem initialise (h : EngineInv s) : EngineInv (initialise s) := by
  have hssc := h.emit inRegisterMap_ssc (by simp [sscAddr, oeAddr])
  have hmask := hssc.updateMask (m := maskAllDisabled) (by decide)
    (fun he => absurd he (not_someEnabled_of_allDisabled rfl))
  have hxtal := hmask.emit inRegisterMap_xtal (by simp [xtalAddr, oeAddr])
  have hplla := hxtal.emit inRegisterMap_plla (by simp)
  have hrst := hplla.emit inRegisterMap_rst (by simp [rstAddr, oeAddr])
  refine (hrst.withInitDone ?_).respond .ok
  simp [State.chipByte, read_deliver_b, oeAddr, sscAddr, xtalAddr, pllaMsAddr, rstAddr]

protected theorem programChannel (h : EngineInv s) (c : Channel) (f : Packed) (hv : s.vcoRef ≠ 0#32)
    (hi : s.initDone = true) : EngineInv (programChannel c f s) := by
  have hblock := h.emit (inRegisterMap_multisynth c f s.rdiv) (by simp)
  have hctrl := hblock.emit (inRegisterMap_control c (readDrive c s)) (by simp [ctrlAddr_ne_oeAddr])
  refine EngineInv.respond (hctrl.updateMask ?_ fun _ => ⟨hv, hi⟩) .ok
  exact (mask_reserved_bits c s.enMask).1.trans h.reservedOnes

protected theorem disableChannel (h : EngineInv s) (c : Channel) : EngineInv (disableChannel c s) := by
  refine EngineInv.respond (h.updateMask ?_ fun he => ?_) .ok
  · exact (mask_reserved_bits c s.enMask).2.trans h.reservedOnes
  · have hs := someEnabled_of_maskDisable c he
    exact ⟨h.vcoNonzero hs, h.enabledAfterInit hs⟩

protected theorem writeDrive (h : EngineInv s) (c : Channel) (code : BitVec 2) : EngineInv (writeDrive c code s) := by
  cases c <;> exact { h with }

protected theorem exec (h : EngineInv s) {i : Instr} {t : State} (ht : exec i s = .next t) : EngineInv t := by
  rcases exec_cases ht with ⟨code, rfl⟩ | ⟨-, -, rfl⟩ | ⟨_, c, _, f, -, -, hi, -, hfit, -, rfl⟩ |
    ⟨_, c, _, -, -, -, -, rfl⟩ | ⟨vco, -, hv, rfl⟩ | ⟨r, -, rfl⟩ | ⟨_, c, code, -, -, rfl⟩ | ⟨_, -, -, rfl⟩
  · exact h.raiseFault code
  · exact h.initialise
  · exact h.programChannel c f (vcoRef_ne_zero_of_fitsP1 hfit) hi
  · exact h.disableChannel c
  · exact EngineInv.respond (s := { s with vcoRef := vco }) { h with vcoNonzero := fun he h0 => hv ⟨h0, he⟩ } .ok
  · exact EngineInv.respond (s := { s with rdiv := r }) { h with } .ok
  · exact (h.writeDrive c code).respond .ok
  · exact h.respond _

end EngineInv

/-- Settles O54: the invariant is inductive, one case for each thing a step can do. -/
theorem stepKeepsEngineRules : Obligations.StepKeepsEngineRules := by
  intro s t h ht
  rcases step_cases ht with ⟨-, rfl⟩ | ⟨rest, -, rfl⟩ | ⟨_, rest, -, -, rfl⟩ | ⟨_, rest, why, -, -, -, rfl⟩ |
    ⟨_, rest, i, -, -, -, hexec⟩
  · exact h
  · exact (h.withInputs rest).resetEvent
  · exact h.withInputs rest
  · exact (h.withInputs rest).raiseFault why
  · exact (h.withInputs rest).exec hexec

/-! The registers' writers (R22). -/

/-- Writing DRIVE[c] leaves the drive codes of the other channels (R134). -/
theorem setdrive_keeps_other_drives {ch : BitVec 2} {c : Channel} (hch : ch.toNat = channelIndex c) (code : BitVec 2)
    (s : State) :
    (ch ≠ 0#2 → (writeDrive c code s).drive0 = s.drive0) ∧ (ch ≠ 1#2 → (writeDrive c code s).drive1 = s.drive1) ∧
    (ch ≠ 2#2 → (writeDrive c code s).drive2 = s.drive2) := by
  obtain rfl : ch = BitVec.ofNat 2 (channelIndex c) := by
    rw [← hch, BitVec.ofNat_toNat, BitVec.setWidth_eq]
  cases c <;> simp [writeDrive, channelIndex]

/-- Settles O50, by the effects a command can have: each writes the registers its own rule names. -/
theorem registersHaveTheirWriters : Obligations.RegistersHaveTheirWriters := by
  intro i s t h
  rcases exec_cases h with ⟨code, rfl⟩ | ⟨rfl, -, rfl⟩ | ⟨ch, c, fout, f, rfl, -, -, -, -, -, rfl⟩ |
    ⟨ch, c, fout, rfl, -, -, -, rfl⟩ | ⟨vco, rfl, -, rfl⟩ | ⟨r, rfl, rfl⟩ | ⟨ch, c, code, rfl, hch, rfl⟩ |
    ⟨fout, rfl, -, rfl⟩
  · simp
  · simp [initialise_eq]
  · simp [programChannel_eq]
  · simp [disableChannel_eq]
  · simp
  · simp
  · simpa using setdrive_keeps_other_drives hch code s
  · simp

end Sys2Proof.Machine

/-! The chip's register space: the frame of SETFREQ (O36, O37), the register map (O51), the image that no command reads
(O52), and a block as eight writes (O21). -/

namespace Sys2Proof.Machine

/-! What SETFREQ can do, and what it leaves of the mask and of the chip's image (R46, R114). -/

/-- SETFREQ raises a fault, programs its channel or shuts it off (R100 to R106). -/
theorem exec_setfreq_cases {ch : BitVec 2} {fout : Freq} {s t : State} (h : exec (.setfreq ch fout) s = .next t) :
    (∃ code, t = raiseFault code s) ∨ (∃ c f, channelOf ch = some c ∧ t = programChannel c f s) ∨
      (∃ c, channelOf ch = some c ∧ t = disableChannel c s) := by
  rcases exec_cases h with hfault | ⟨⟨⟩, -⟩ | ⟨_, c, _, f, ⟨⟩, hc, -, -, -, -, ht⟩ | ⟨_, c, _, ⟨⟩, hc, -, -, ht⟩ |
    ⟨_, ⟨⟩, -⟩ | ⟨_, ⟨⟩, -⟩ | ⟨_, _, _, ⟨⟩, -⟩ | ⟨_, ⟨⟩, -⟩
  · exact .inl hfault
  · exact .inr (.inl ⟨c, f, channelOf_eq_some.2 hc, ht⟩)
  · exact .inr (.inr ⟨c, channelOf_eq_some.2 hc, ht⟩)

theorem channelIndex_injective : Function.Injective channelIndex := by
  intro c d h
  have hc := channelOf_index c
  rw [h, channelOf_index] at hc
  exact (Option.some.inj hc).symm

/-- A channel's block does not pass register 255 (R43, R110). -/
theorem msAddr_block_fits (c : Channel) : (msAddr c).toNat + 7 < 256 := by cases c <;> decide

/-- Programming a channel reaches its block, its control register and register 3 (R46, R115). -/
theorem chipByte_programChannel_frame (c : Channel) (f : Packed) (s : State) {a : Nat}
    (hms : ¬((msAddr c).toNat ≤ a ∧ a ≤ (msAddr c).toNat + 7)) (hctrl : a ≠ (ctrlAddr c).toNat)
    (hoe : a ≠ oeAddr.toNat) : (programChannel c f s).chipByte a = s.chipByte a := by
  simp only [State.chipByte, programChannel_eq, read_deliver_w, if_neg hctrl, if_neg hoe,
    read_deliver_b _ _ _ _ (msAddr_block_fits c), if_neg hms]

/-- Shutting a channel off reaches register 3 only (R103). -/
theorem chipByte_disableChannel_frame (c : Channel) (s : State) {a : Nat} (hoe : a ≠ oeAddr.toNat) :
    (disableChannel c s).chipByte a = s.chipByte a := by
  simp only [State.chipByte, disableChannel_eq, read_deliver_w, if_neg hoe]

/-- Settles O36: the registers by their writers, the mask's bits and the chip's image by SETFREQ's three cases. -/
theorem setfreqFrame : Obligations.SetfreqFrame := by
  intro ch fout s t h
  obtain ⟨hvco, hrdiv, h0, h1, h2, -, hinit⟩ := registersHaveTheirWriters _ s t h
  refine ⟨hvco (by simp), hrdiv (by simp), h0 (by simp), h1 (by simp), h2 (by simp), hinit (by simp), ?_⟩
  rcases exec_setfreq_cases h with ⟨code, rfl⟩ | ⟨c, f, hc, rfl⟩ | ⟨c, hc, rfl⟩
  · simp [State.chipByte]
  · refine ⟨by simp [programChannel_eq], fun n hn => ?_, fun d hd a hms hctrl hoe => ?_, by simp [hc]⟩
    · rw [channelOf_eq_some.1 hc] at hn
      simpa only [programChannel_eq] using (mask_other_bits c s.enMask n hn).1
    · obtain rfl : c = d := Option.some.inj (hc.symm.trans hd)
      exact chipByte_programChannel_frame c f s hms hctrl hoe
  · refine ⟨by simp [disableChannel_eq], fun n hn => ?_, fun _ _ a _ _ hoe => ?_, by simp [hc]⟩
    · rw [channelOf_eq_some.1 hc] at hn
      simpa only [disableChannel_eq] using (mask_other_bits c s.enMask n hn).2
    · exact chipByte_disableChannel_frame c s hoe

/-- Settles O37: the other channel's bit and registers lie in the frame of SETFREQ. -/
theorem channelsAreIsolated : Obligations.ChannelsAreIsolated := by
  intro c d fout s t hne h
  have hcd : channelIndex d ≠ channelIndex c := fun he => hne (channelIndex_injective he).symm
  have hc := channelIndex_lt c
  have hd := channelIndex_lt d
  obtain ⟨-, -, h0, h1, h2, -, -, hmask, hchip, -⟩ := setfreqFrame _ _ _ _ h
  rw [channelOf_eq_some.1 (channelOf_index c)] at hmask
  have hframe := hchip c (channelOf_index c)
  rw [msAddr_toNat, ctrlAddr_toNat, show oeAddr.toNat = 3 from rfl] at hframe
  refine ⟨?_, ?_, ?_, fun n hn => ?_⟩
  · rw [isEnabled, isEnabled, hmask _ hcd]
  · cases d
    · exact h0
    · exact h1
    · exact h2
  · exact hframe _ (by omega) (by omega) (by omega)
  · exact hframe _ (by omega) (by omega) (by omega)

/-! The transactions a step puts on the port (R44, R45). -/

theorem transactionsOf_initialise (s : State) :
    transactionsOf (initialise s).trace = transactionsOf s.trace ++
      [.w sscAddr sscOffValue, .w oeAddr maskAllDisabled, .w xtalAddr Config.xtalLoadValue, .b pllaMsAddr pllaBlock,
       .w rstAddr rstValue] := by
  simp [initialise_eq, transactionsOf]

theorem transactionsOf_programChannel (c : Channel) (f : Packed) (s : State) :
    transactionsOf (programChannel c f s).trace = transactionsOf s.trace ++
      [.b (msAddr c) (multisynthBlock f s.rdiv), .w (ctrlAddr c) (controlByte (readDrive c s)),
       .w oeAddr (maskEnable c s.enMask)] := by
  simp [programChannel_eq, transactionsOf]

theorem transactionsOf_disableChannel (c : Channel) (s : State) :
    transactionsOf (disableChannel c s).trace = transactionsOf s.trace ++ [.w oeAddr (maskDisable c s.enMask)] := by
  simp [disableChannel_eq, transactionsOf]

/-! None of SETFREQ's transactions is one that only INIT emits (R44). -/

theorem not_initOnly_mask (m : BitVec 8) : ¬initOnly (.w oeAddr m) := by simp [initOnly, oeAddr]

theorem not_initOnly_control (c : Channel) (v : Byte) : ¬initOnly (.w (ctrlAddr c) v) := by
  cases c <;> simp [initOnly, ctrlAddr, ctrlBase, channelIndex]

theorem not_initOnly_multisynth (c : Channel) (d : Block) : ¬initOnly (.b (msAddr c) d) := by
  cases c <;> simp [initOnly, msAddr, msBase, msStride, channelIndex]

/-- From s to t the engine emits transactions of the register map only, and INIT's own among them only if `init` holds. -/
def EmitsMapped (init : Prop) (s t : State) : Prop :=
  ∃ ts : List Transaction, transactionsOf t.trace = transactionsOf s.trace ++ ts ∧
    (∀ x ∈ ts, inRegisterMap x) ∧ ((∃ x ∈ ts, initOnly x) → init)

namespace EmitsMapped

variable {init : Prop} {s t : State}

/-- Nothing emitted is nothing outside the map. -/
protected theorem of_no_transaction (h : transactionsOf t.trace = transactionsOf s.trace) : EmitsMapped init s t :=
  ⟨[], by simp [h], by simp, by simp⟩

protected theorem initialise (hinit : init) : EmitsMapped init s (initialise s) := by
  refine ⟨_, transactionsOf_initialise s, ?_, fun _ => hinit⟩
  have hmask : inRegisterMap (.w oeAddr maskAllDisabled) := inRegisterMap_mask (by decide)
  simp [hmask, inRegisterMap_ssc, inRegisterMap_xtal, inRegisterMap_plla, inRegisterMap_rst]

/-- The mask keeps its reserved ones (R27), so the byte sent to register 3 is one the map gives it. -/
protected theorem programChannel (hm : s.enMask.extractLsb' 3 5 = 0b11111#5) (c : Channel) (f : Packed) :
    EmitsMapped init s (programChannel c f s) := by
  refine ⟨_, transactionsOf_programChannel c f s, ?_, ?_⟩
  · have hmask := inRegisterMap_mask ((mask_reserved_bits c s.enMask).1.trans hm)
    simp [hmask, inRegisterMap_control, inRegisterMap_multisynth]
  · simp [not_initOnly_mask, not_initOnly_control, not_initOnly_multisynth]

protected theorem disableChannel (hm : s.enMask.extractLsb' 3 5 = 0b11111#5) (c : Channel) :
    EmitsMapped init s (disableChannel c s) := by
  refine ⟨_, transactionsOf_disableChannel c s, ?_, by simp [not_initOnly_mask]⟩
  have hmask := inRegisterMap_mask ((mask_reserved_bits c s.enMask).2.trans hm)
  simp [hmask]

/-- Of the effects a command can have, only INIT's and SETFREQ's put a transaction on the port. -/
protected theorem exec (hm : s.enMask.extractLsb' 3 5 = 0b11111#5) {i : Instr} (h : exec i s = .next t) :
    EmitsMapped (i = .init) s t := by
  rcases exec_cases h with ⟨code, rfl⟩ | ⟨hi, -, rfl⟩ | ⟨_, c, _, f, -, -, -, -, -, -, rfl⟩ |
    ⟨_, c, _, -, -, -, -, rfl⟩ | ⟨vco, -, -, rfl⟩ | ⟨r, -, rfl⟩ | ⟨_, c, code, -, -, rfl⟩ | ⟨_, -, -, rfl⟩
  case inr.inl => exact .initialise hi
  case inr.inr.inl => exact .programChannel hm c f
  case inr.inr.inr.inl => exact .disableChannel hm c
  all_goals exact .of_no_transaction (by simp [transactionsOf])

end EmitsMapped

/-- Settles O51: only an executed instruction emits, and what it emits the map lists. -/
theorem onlyMappedRegistersWritten : Obligations.OnlyMappedRegistersWritten := by
  intro s t hs ht
  rcases step_cases ht with ⟨-, rfl⟩ | ⟨_, -, rfl⟩ | ⟨_, _, -, -, rfl⟩ | ⟨_, _, _, -, -, -, rfl⟩ |
    ⟨w, rest, i, hin, -, hdec, hexec⟩
  case inr.inr.inr.inr =>
    obtain ⟨ts, htrace, hmap, hinit⟩ := EmitsMapped.exec (s := { s with inputs := rest }) hs.reservedOnes hexec
    exact ⟨ts, htrace, hmap, fun hx => ⟨w, rest, hin, hinit hx ▸ hdec⟩⟩
  all_goals exact EmitsMapped.of_no_transaction (by simp [transactionsOf])

/-! The chip's image is never read (R41): with another image, every branch the engine takes is the same. -/

/-- The two states differ in the chip's image at most. -/
def SameButChip (s s' : State) : Prop := ∃ m : Memory, s' = { s with chip := m }

/-- Both outcomes are next states, and these differ in the chip's image at most. -/
inductive OutcomesSameButChip : Host.Outcome State Fault Refusal → Host.Outcome State Fault Refusal → Prop where
  | next {t t' : State} (h : SameButChip t t') : OutcomesSameButChip (.next t) (.next t')

theorem OutcomesSameButChip.exists_next {t : State} {o : Host.Outcome State Fault Refusal}
    (h : OutcomesSameButChip (.next t) o) : ∃ t', o = .next t' ∧ SameButChip t t' := by
  cases h with
  | next h => exact ⟨_, rfl, h⟩

theorem programChannel_sameButChip (c : Channel) (f : Packed) (s : State) (m : Memory) :
    SameButChip (programChannel c f s) (programChannel c f { s with chip := m }) := by
  cases c <;> exact ⟨_, rfl⟩

theorem setFrequency_sameButChip (c : Channel) (fout : Freq) (s : State) (m : Memory) :
    SameButChip (setFrequency c fout s) (setFrequency c fout { s with chip := m }) := by
  simp only [setFrequency]
  split
  · split
    · split
      · exact ⟨m, rfl⟩
      · exact programChannel_sameButChip c _ s m
    · exact ⟨_, rfl⟩
  · exact ⟨m, rfl⟩

theorem exec_sameButChip (i : Instr) (s : State) (m : Memory) :
    OutcomesSameButChip (exec i s) (exec i { s with chip := m }) := by
  cases i with
  | init =>
    simp only [exec, execInit]
    split
    · exact .next ⟨m, rfl⟩
    · exact .next ⟨_, rfl⟩
  | setfreq ch fout =>
    simp only [exec, execSetfreq]
    split
    · exact .next ⟨m, rfl⟩
    · exact .next (setFrequency_sameButChip _ fout s m)
  | setvco vco =>
    simp only [exec, execSetvco]
    split <;> exact .next ⟨m, rfl⟩
  | setrdiv r => exact .next ⟨m, rfl⟩
  | setdrive ch code =>
    simp only [exec, execSetdrive]
    split
    · exact .next ⟨m, rfl⟩
    · next c _ => cases c <;> exact .next ⟨m, rfl⟩
  | compute fout =>
    simp only [exec, execCompute]
    split <;> exact .next ⟨m, rfl⟩

theorem runWord_sameButChip (w : CmdWord) (s : State) (m : Memory) :
    OutcomesSameButChip (runWord w s) (runWord w { s with chip := m }) := by
  simp only [runWord]
  split
  · exact exec_sameButChip _ s m
  · exact .next ⟨m, rfl⟩

/-- The inputs and FAULT, by which a step chooses what to do, are the same with another image. -/
theorem step_sameButChip (s : State) (m : Memory) : OutcomesSameButChip (step s) (step { s with chip := m }) := by
  simp only [step, serve]
  split
  · exact .next ⟨m, rfl⟩
  · next x rest _ =>
    cases x with
    | reset => exact .next ⟨m, rfl⟩
    | command w =>
      simp only [takeInput, offerCommand]
      split
      · exact .next ⟨m, rfl⟩
      · exact runWord_sameButChip w { s with inputs := rest } m

/-- Settles O52: a step takes states that differ in the chip's image at most to such states. -/
theorem chipContentNeverRead : Obligations.ChipContentNeverRead := by
  intro s t m ht
  have hstep := step_sameButChip s m
  rw [ht] at hstep
  obtain ⟨t', ht', m', rfl⟩ := hstep.exists_next
  exact ⟨m', ht'⟩

/-! A block is eight single writes (R43). -/

theorem blockReg_ofNat (a i : Nat) : blockReg (BitVec.ofNat 8 a) i = (BitVec.ofNat 8 (a + i)).toNat := by
  rw [blockReg, BitVec.ofNat_add]

/-- Settles O21: both sides write the same eight registers in the same order. -/
theorem blockIsEightWrites : Obligations.BlockIsEightWrites := by
  intro m a d _
  simp only [deliver, blockReg_ofNat, List.foldl, Nat.add_zero]

end Sys2Proof.Machine

/-! The command word: encoding, decoding and assembling (O1 to O5), and the words that fault (O9 to O11). -/

namespace Sys2Proof.Machine

/-! The decoder's answer for each opcode (R64). -/

@[simp] theorem unlessReserved_eq_instr {b : Bool} {i j : Instr} :
    unlessReserved b i = .instr j ↔ b = true ∧ i = j := by
  cases b <;> simp [unlessReserved]

@[simp] theorem unlessReserved_eq_reservedBits {b : Bool} {i : Instr} :
    unlessReserved b i = .rejected .reservedBits ↔ b = false := by
  cases b <;> simp [unlessReserved]

section

variable {w : CmdWord}

theorem decode_opInit (h : fieldOp w = opInit) :
    decode w = unlessReserved (fieldRsvd w == 0#26 && fieldCh w == 0#2 && fieldData w == 0#32) .init := by
  rw [decode, if_pos h]

theorem decode_opSetfreq (h : fieldOp w = opSetfreq) :
    decode w = unlessReserved (fieldRsvd w == 0#26) (.setfreq (fieldCh w) (fieldData w)) := by
  simp [decode, h, opInit, opSetfreq]

theorem decode_opSetvco (h : fieldOp w = opSetvco) :
    decode w = unlessReserved (fieldRsvd w == 0#26 && fieldCh w == 0#2) (.setvco (fieldData w)) := by
  simp [decode, h, opInit, opSetfreq, opSetvco]

theorem decode_opSetrdiv (h : fieldOp w = opSetrdiv) :
    decode w = unlessReserved (fieldRsvd w == 0#26 && fieldCh w == 0#2 && (fieldData w).extractLsb' 3 29 == 0#29)
      (.setrdiv ((fieldData w).extractLsb' 0 3)) := by
  simp [decode, h, opInit, opSetfreq, opSetvco, opSetrdiv]

theorem decode_opSetdrive (h : fieldOp w = opSetdrive) :
    decode w = unlessReserved (fieldRsvd w == 0#26 && (fieldData w).extractLsb' 2 30 == 0#30)
      (.setdrive (fieldCh w) ((fieldData w).extractLsb' 0 2)) := by
  simp [decode, h, opInit, opSetfreq, opSetvco, opSetrdiv, opSetdrive]

theorem decode_opCompute (h : fieldOp w = opCompute) :
    decode w = unlessReserved (fieldRsvd w == 0#26 && fieldCh w == 0#2) (.compute (fieldData w)) := by
  simp [decode, h, opInit, opSetfreq, opSetvco, opSetrdiv, opSetdrive, opCompute]

end

/-! Decoding and encoding are each other's inverse (R62 to R66). -/

@[simp] theorem fieldOp_packWord (op : BitVec 4) (ch : BitVec 2) (d : BitVec 32) :
    fieldOp (packWord op ch d) = op := (packWord_fields op ch d).1

@[simp] theorem fieldRsvd_packWord (op : BitVec 4) (ch : BitVec 2) (d : BitVec 32) :
    fieldRsvd (packWord op ch d) = 0#26 := (packWord_fields op ch d).2.1

@[simp] theorem fieldCh_packWord (op : BitVec 4) (ch : BitVec 2) (d : BitVec 32) :
    fieldCh (packWord op ch d) = ch := (packWord_fields op ch d).2.2.1

@[simp] theorem fieldData_packWord (op : BitVec 4) (ch : BitVec 2) (d : BitVec 32) :
    fieldData (packWord op ch d) = d := (packWord_fields op ch d).2.2.2

/-- Settles O2: each instruction's word has its opcode, so the decoder reads the operands back from its fields. -/
theorem decodeUndoesEncode : Obligations.DecodeUndoesEncode := by
  intro i
  -- simp must not add up the widths of an append: the library's lemmas speak of `w + len`.
  cases i with
  | init => rw [encode, decode_opInit (by simp)]; simp
  | setfreq ch fout => rw [encode, decode_opSetfreq (by simp)]; simp
  | setvco vco => rw [encode, decode_opSetvco (by simp)]; simp
  | setrdiv r =>
    have hhigh : (0#29 ++ r).extractLsb' 3 29 = 0#29 := BitVec.extractLsb'_append_eq_left
    have hlow : (0#29 ++ r).extractLsb' 0 3 = r := BitVec.extractLsb'_append_eq_right
    rw [encode, decode_opSetrdiv (by simp)]
    simp [hhigh, hlow, -Nat.reduceAdd]
  | setdrive ch code =>
    have hhigh : (0#30 ++ code).extractLsb' 2 30 = 0#30 := BitVec.extractLsb'_append_eq_left
    have hlow : (0#30 ++ code).extractLsb' 0 2 = code := BitVec.extractLsb'_append_eq_right
    rw [encode, decode_opSetdrive (by simp)]
    simp [hhigh, hlow, -Nat.reduceAdd]
  | compute fout => rw [encode, decode_opCompute (by simp)]; simp

/-- Settles O3: an accepted word has RSVD zero, so it is its three fields packed, as the encoder packs them. -/
theorem encodeUndoesDecode : Obligations.EncodeUndoesDecode := by
  intro w i h
  obtain ⟨hrsvd, hi⟩ := decode_cases h
  have hw := (packWord_eq_iff w).2 hrsvd
  rcases hi with ⟨rfl, hop, hch, hdata⟩ | ⟨rfl, hop⟩ | ⟨rfl, hop, hch⟩ | ⟨rfl, hop, hch, hhigh⟩ | ⟨rfl, hop, hhigh⟩ |
    ⟨rfl, hop, hch⟩
  · rw [encode, ← hop, ← hch, ← hdata, hw]
  · rw [encode, ← hop, hw]
  · rw [encode, ← hop, ← hch, hw]
  · have hd : 0#29 ++ (fieldData w).extractLsb' 0 3 = fieldData w := by
      rw [← hhigh]; exact BitVec.extractLsb'_append_extractLsb' (w := 29) (len := 3)
    rw [encode, hd, ← hop, ← hch, hw]
  · have hd : 0#30 ++ (fieldData w).extractLsb' 0 2 = fieldData w := by
      rw [← hhigh]; exact BitVec.extractLsb'_append_extractLsb' (w := 30) (len := 2)
    rw [encode, hd, ← hop, hw]
  · rw [encode, ← hop, ← hch, hw]

/-- Settles O4: the operands are fields of the word, and the fields' numbers are known. -/
theorem operandsAreTheFields : Obligations.OperandsAreTheFields := by
  intro w i h
  obtain ⟨hopw, -, hchw, hdataw⟩ := fields_toNat w
  obtain ⟨-, hi⟩ := decode_cases h
  rcases hi with ⟨rfl, hop, -, -⟩ | ⟨rfl, hop⟩ | ⟨rfl, hop, -⟩ | ⟨rfl, hop, -, -⟩ | ⟨rfl, hop, -⟩ | ⟨rfl, hop, -⟩ <;>
    rw [hop] at hopw
  · exact hopw.symm
  · exact ⟨hopw.symm, hchw, hdataw⟩
  · exact ⟨hopw.symm, hdataw⟩
  · exact ⟨hopw.symm, by rw [BitVec.extractLsb'_toNat, hdataw]; rfl⟩
  · exact ⟨hopw.symm, hchw, by rw [BitVec.extractLsb'_toNat, hdataw]; rfl⟩
  · exact ⟨hopw.symm, hdataw⟩

/-- Settles O1: the seven words are closed. -/
theorem workedEncodingsDecode : Obligations.WorkedEncodingsDecode := by
  unfold Obligations.WorkedEncodingsDecode
  decide

/-! The words the decoder rejects, by their fields as numbers (R65, R66, R154). -/

@[simp] theorem fieldRsvd_eq_zero (w : CmdWord) : fieldRsvd w = 0#26 ↔ wordRsvd w = 0 := by
  rw [← (fields_toNat w).2.1]
  exact BitVec.toNat_inj.symm

@[simp] theorem fieldCh_eq_zero (w : CmdWord) : fieldCh w = 0#2 ↔ wordCh w = 0 := by
  rw [← (fields_toNat w).2.2.1]
  exact BitVec.toNat_inj.symm

@[simp] theorem fieldData_eq_zero (w : CmdWord) : fieldData w = 0#32 ↔ wordData w = 0 := by
  rw [← (fields_toNat w).2.2.2]
  exact BitVec.toNat_inj.symm

/-- The bits of DATA from position k up are zero exactly when DATA is below 2^k. -/
theorem fieldData_high_eq_zero (w : CmdWord) {k n : Nat} (h : k + n = 32) :
    (fieldData w).extractLsb' k n = 0#n ↔ wordData w < 2 ^ k := by
  have hlt : (fieldData w).toNat / 2 ^ k < 2 ^ n := by
    rw [Nat.div_lt_iff_lt_mul (Nat.two_pow_pos k), ← Nat.pow_add, Nat.add_comm, h]
    exact (fieldData w).isLt
  rw [← BitVec.toNat_inj, BitVec.extractLsb'_toNat, BitVec.toNat_zero, Nat.shiftRight_eq_div_pow, Nat.mod_eq_of_lt hlt,
    Nat.div_eq_zero_iff_lt (Nat.two_pow_pos k), (fields_toNat w).2.2.2]

theorem fieldOp_eq_iff (w : CmdWord) (op : BitVec 4) : fieldOp w = op ↔ wordOp w = op.toNat := by
  rw [← (fields_toNat w).1, BitVec.toNat_inj]

/-- A word has one of the six opcodes of R64 or a reserved one. -/
theorem opcode_cases (w : CmdWord) :
    fieldOp w = opInit ∨ fieldOp w = opSetfreq ∨ fieldOp w = opSetvco ∨ fieldOp w = opSetrdiv ∨
      fieldOp w = opSetdrive ∨ fieldOp w = opCompute ∨ ReservedOpcode w := by
  simp only [fieldOp_eq_iff, opInit, opSetfreq, opSetvco, opSetrdiv, opSetdrive, opCompute,
    BitVec.reduceToNat, ReservedOpcode]
  omega

/-- A reserved opcode is rejected before any other bit is looked at (R65). -/
theorem decode_reservedOpcode {w : CmdWord} (h : ReservedOpcode w) : decode w = .rejected .illegalOpcode := by
  have hne : ∀ op : BitVec 4, 1 ≤ op.toNat → op.toNat ≤ 6 → fieldOp w ≠ op := by
    intro op h1 h6 he
    have := (fieldOp_eq_iff w op).1 he
    omega
  rw [decode, if_neg (hne opInit (by decide) (by decide)), if_neg (hne opSetfreq (by decide) (by decide)),
    if_neg (hne opSetvco (by decide) (by decide)), if_neg (hne opSetrdiv (by decide) (by decide)),
    if_neg (hne opSetdrive (by decide) (by decide)), if_neg (hne opCompute (by decide) (by decide))]

/-- The decoder reports reserved bits exactly for the words of R66. -/
theorem decode_eq_reservedBits_iff {w : CmdWord} (hr : ¬ReservedOpcode w) :
    decode w = .rejected .reservedBits ↔ ReservedBitsSet w := by
  have hrdiv := fieldData_high_eq_zero w (k := 3) (n := 29) rfl
  have hdrive := fieldData_high_eq_zero w (k := 2) (n := 30) rfl
  rcases opcode_cases w with h | h | h | h | h | h | h
  case inr.inr.inr.inr.inr.inr => exact absurd h hr
  all_goals have hop := (fieldOp_eq_iff w _).1 h
  · simp [decode_opInit h, ReservedBitsSet, hop, opInit, imp_iff_not_or, or_assoc]
  · simp [decode_opSetfreq h, ReservedBitsSet, hop, opSetfreq]
  · simp [decode_opSetvco h, ReservedBitsSet, hop, opSetvco, imp_iff_not_or]
  · simp [decode_opSetrdiv h, ReservedBitsSet, hop, opSetrdiv, imp_iff_not_or, or_assoc, hrdiv]
  · simp [decode_opSetdrive h, ReservedBitsSet, hop, opSetdrive, imp_iff_not_or, hdrive]
  · simp [decode_opCompute h, ReservedBitsSet, hop, opCompute, imp_iff_not_or]

/-- A rejected word raises its decode fault (R65, R66, R150). -/
theorem runWord_rejected {w : CmdWord} {why : FaultCode} (h : decode w = .rejected why) (s : State) :
    runWord w s = .next (s.faulted (faultCodeBits why)) := by
  simp only [runWord, h, raiseFault_eq]

theorem runWord_instr {w : CmdWord} {i : Instr} (h : decode w = .instr i) (s : State) : runWord w s = exec i s := by
  simp only [runWord, h]

/-- Settles O9: a reserved opcode is a decode fault. -/
theorem reservedOpcodeFaults : Obligations.ReservedOpcodeFaults := by
  intro s w hop
  have hr : ReservedOpcode w := hop.imp_right And.left
  exact runWord_rejected (decode_reservedOpcode hr) s

/-- Settles O10: the cases are those of `ReservedBitsSet`, and the opcode is one of the six. -/
theorem reservedBitsFault : Obligations.ReservedBitsFault := by
  intro s w ⟨h1, h6⟩ hbits
  have hr : ¬ReservedOpcode w := by omega
  have hb : ReservedBitsSet w := by
    unfold ReservedBitsSet
    omega
  exact runWord_rejected ((decode_eq_reservedBits_iff hr).2 hb) s

theorem exec_setfreq_channel_three (fout : Freq) (s : State) : exec (.setfreq 3#2 fout) s = .next (s.faulted 3#4) := by
  simp only [exec, execSetfreq, channelOf_three, raiseFault_eq, faultCodeBits]

theorem exec_setdrive_channel_three (code : BitVec 2) (s : State) :
    exec (.setdrive 3#2 code) s = .next (s.faulted 3#4) := by
  simp only [exec, execSetdrive, channelOf_three, raiseFault_eq, faultCodeBits]

/-- Settles O11: such a word is accepted with the operand 3, and the command's own meaning faults. -/
theorem channelThreeFaults : Obligations.ChannelThreeFaults := by
  refine ⟨fun s w hop hch hb => ?_, fun s fout code =>
    ⟨exec_setfreq_channel_three fout s, exec_setdrive_channel_three code s⟩⟩
  obtain ⟨hrsvd, -, -, -, hdata⟩ : wordRsvd w = 0 ∧ _ := by simpa [ReservedBitsSet, not_or] using hb
  have hch3 : fieldCh w = 3#2 := BitVec.eq_of_toNat_eq ((fields_toNat w).2.2.1.trans hch)
  rcases hop with hop | hop
  · have hdec : decode w = .instr (.setfreq 3#2 (fieldData w)) := by
      rw [decode_opSetfreq ((fieldOp_eq_iff w _).2 hop), hch3]
      simp [hrsvd]
    rw [runWord_instr hdec, exec_setfreq_channel_three]
  · have hhigh := (fieldData_high_eq_zero w (k := 2) (n := 30) rfl).2 (hdata hop)
    have hdec : decode w = .instr (.setdrive 3#2 ((fieldData w).extractLsb' 0 2)) := by
      rw [decode_opSetdrive ((fieldOp_eq_iff w _).2 hop), hch3]
      simp [hrsvd, hhigh]
    rw [runWord_instr hdec, exec_setdrive_channel_three]

/-! The word a step takes (R61, R62). -/

/-- Settles O6: with FAULT = 0 the offered word is accepted. -/
theorem stepRunsDecodedInstruction : Obligations.StepRunsDecodedInstruction := by
  intro s w rest i hin hf hdec
  rw [step_command hin hf, runWord_instr hdec]

theorem decodeTableWord_eq_some {nbits w : Nat} {i : Instr} :
    decodeTableWord nbits w = some i ↔ decode (tableWord nbits w) = .instr i := by
  unfold decodeTableWord
  split <;> simp [*]

/-- Settles O7: the table word is offered at the head of the inputs, and taking it off leaves the state itself. -/
theorem fetchedTableWordRuns : Obligations.FetchedTableWordRuns := by
  intro s w i hf hdec
  exact stepRunsDecodedInstruction (s.withFetchWord 64 w) (tableWord 64 w) s.inputs i rfl hf
    (decodeTableWord_eq_some.1 hdec)

/-! The assembler (R75, R76): each line's words, and none where an operand does not fit. -/

/-- A number below 2^n, extended with zeros, is the same number. -/
theorem zero_append_ofNat {m n k : Nat} (h : k < 2 ^ n) : 0#m ++ BitVec.ofNat n k = BitVec.ofNat (m + n) k := by
  have hk : k < 2 ^ (m + n) := Nat.lt_of_lt_of_le h (Nat.pow_le_pow_right (by decide) (Nat.le_add_left n m))
  apply BitVec.eq_of_toNat_eq
  rw [BitVec.toNat_append, BitVec.toNat_zero, Nat.zero_shiftLeft, Nat.zero_or, BitVec.toNat_ofNat, BitVec.toNat_ofNat,
    Nat.mod_eq_of_lt h, Nat.mod_eq_of_lt hk]

/-- The packed word of a command without a channel operand. -/
theorem packWord_zero_ofNat (op : BitVec 4) {d : Nat} (h : d < 2 ^ 32) :
    packWord op 0#2 (BitVec.ofNat 32 d) = BitVec.ofNat 64 (op.toNat * 2 ^ 60 + d) := by
  have := packWord_ofNat op (ch := 0) (by decide) h
  simpa using this

theorem encode_setrdiv_ofNat {r : Nat} (h : r ≤ 7) :
    encode (.setrdiv (BitVec.ofNat 3 r)) = BitVec.ofNat 64 (4 * 2 ^ 60 + r) := by
  rw [encode, zero_append_ofNat (by omega)]
  exact packWord_zero_ofNat opSetrdiv (by omega)

theorem encode_setdrive_ofNat {ch code : Nat} (hch : ch ≤ 3) (h : code ≤ 3) :
    encode (.setdrive (BitVec.ofNat 2 ch) (BitVec.ofNat 2 code)) =
      BitVec.ofNat 64 (5 * 2 ^ 60 + ch * 2 ^ 32 + code) := by
  rw [encode, zero_append_ofNat (by omega)]
  exact packWord_ofNat opSetdrive hch (by omega)

theorem encode_setfreq_ofNat {ch fout : Nat} (hch : ch ≤ 3) (h : fout < 2 ^ 32) :
    encode (.setfreq (BitVec.ofNat 2 ch) (BitVec.ofNat 32 fout)) = BitVec.ofNat 64 (2 * 2 ^ 60 + ch * 2 ^ 32 + fout) :=
  packWord_ofNat opSetfreq hch h

/-- SETDRIVE's operands both fit, or the line is refused. -/
theorem asmSetdrive_operandFits (ch code : Nat) :
    asmSetdrive ch (operandFits code) =
      if ch ≤ 3 ∧ code ≤ 3 then some (.setdrive (BitVec.ofNat 2 ch) (BitVec.ofNat 2 code)) else none := by
  unfold asmSetdrive
  by_cases hch : ch < 2 ^ 2 <;> by_cases hcode : code < 2 ^ 2
  · rw [operandFits_of_lt hch, operandFits_of_lt hcode, if_pos (by omega)]
  · rw [operandFits_of_lt hch, operandFits_of_not_lt hcode, if_neg (by omega)]
  all_goals rw [operandFits_of_not_lt hch, if_neg (by omega)]

/-- The four currents have the four codes in order (R26). -/
theorem driveCodeOf_even {code : Nat} (h : code ≤ 3) : driveCodeOf (2 * code + 2) = operandFits code := by
  interval_cases code <;> rfl

theorem assembleWords_setfreq (ch fout : Nat) :
    assembleWords (.setfreq ch fout) =
      if ch ≤ 3 ∧ fout < 2 ^ 32 then some [BitVec.ofNat 64 (2 * 2 ^ 60 + ch * 2 ^ 32 + fout)] else none := by
  rw [assembleWords, assemble, asmSetfreq_eq]
  split
  · next h => simp only [Option.map_some, List.map_cons, List.map_nil, encode_setfreq_ofNat h.1 h.2]
  · rfl

theorem assembleWords_setvco (vco : Nat) :
    assembleWords (.setvco vco) = if vco < 2 ^ 32 then some [BitVec.ofNat 64 (3 * 2 ^ 60 + vco)] else none := by
  rw [assembleWords, assemble, operandFits]
  split
  · next h => simp only [Option.map_some, List.map_cons, List.map_nil, encode, packWord_zero_ofNat opSetvco h]; rfl
  · rfl

theorem assembleWords_compute (fout : Nat) :
    assembleWords (.compute fout) = if fout < 2 ^ 32 then some [BitVec.ofNat 64 (6 * 2 ^ 60 + fout)] else none := by
  rw [assembleWords, assemble, operandFits]
  split
  · next h => simp only [Option.map_some, List.map_cons, List.map_nil, encode, packWord_zero_ofNat opCompute h]; rfl
  · rfl

theorem assembleWords_setrdiv (r : Nat) :
    assembleWords (.setrdiv r) = if r ≤ 7 then some [BitVec.ofNat 64 (4 * 2 ^ 60 + r)] else none := by
  rw [assembleWords, assemble]
  by_cases h : r ≤ 7
  · rw [operandFits_of_lt (by omega), if_pos h, ← encode_setrdiv_ofNat h]; rfl
  · rw [operandFits_of_not_lt (by omega), if_neg h]; rfl

theorem assembleWords_setdrive (ch code : Nat) :
    assembleWords (.setdrive ch code) =
      if ch ≤ 3 ∧ code ≤ 3 then some [BitVec.ofNat 64 (5 * 2 ^ 60 + ch * 2 ^ 32 + code)] else none := by
  rw [assembleWords, assemble, asmSetdrive_operandFits]
  split
  · next h => simp only [Option.map_some, List.map_cons, List.map_nil, encode_setdrive_ofNat h.1 h.2]
  · rfl

theorem assembleWords_setdriveMa_even (ch : Nat) {code : Nat} (h : code ≤ 3) :
    assembleWords (.setdriveMa ch (2 * code + 2)) = assembleWords (.setdrive ch code) := by
  simp only [assembleWords, assemble, driveCodeOf_even h]

theorem assembleWords_setdriveMa_other (ch : Nat) {ma : Nat} (h : ¬(ma = 2 ∨ ma = 4 ∨ ma = 6 ∨ ma = 8)) :
    assembleWords (.setdriveMa ch ma) = none := by
  simp [assembleWords, assemble, driveCodeOf_other h]

/-- SETFREQX is SETRDIV r, SETFREQ and SETRDIV 0 (R76). -/
theorem assembleWords_setfreqx (ch fout r : Nat) :
    assembleWords (.setfreqx ch fout r) =
      if ch ≤ 3 ∧ fout < 2 ^ 32 ∧ r ≤ 7 then
        some [BitVec.ofNat 64 (4 * 2 ^ 60 + r), BitVec.ofNat 64 (2 * 2 ^ 60 + ch * 2 ^ 32 + fout),
          0x4000000000000000#64]
      else none := by
  rw [assembleWords, assemble, asmSetfreq_eq]
  by_cases hr : r ≤ 7
  · rw [operandFits_of_lt (by omega)]
    by_cases h : ch ≤ 3 ∧ fout < 2 ^ 32
    · rw [if_pos h, if_pos ⟨h.1, h.2, hr⟩, ← encode_setrdiv_ofNat hr, ← encode_setfreq_ofNat h.1 h.2]
      rfl
    · rw [if_neg h, if_neg fun hall => h ⟨hall.1, hall.2.1⟩]
      rfl
  · rw [operandFits_of_not_lt (by omega)]
    exact (if_neg fun h => hr h.2.2).symm

/-- A conditional answer, read as its two cases. -/
theorem eq_ite_cases {α : Type} {p : Prop} [Decidable p] {x a b : α} (h : x = if p then a else b) :
    (p → x = a) ∧ (¬p → x = b) :=
  ⟨fun hp => h.trans (if_pos hp), fun hp => h.trans (if_neg hp)⟩

/-- Settles O5, line by line. -/
theorem assembledLinesFit : Obligations.AssembledLinesFit := by
  intro ch fout r code ma
  exact ⟨by decide, eq_ite_cases (assembleWords_setfreq ch fout), eq_ite_cases (assembleWords_setvco fout),
    eq_ite_cases (assembleWords_setrdiv r), eq_ite_cases (assembleWords_setdrive ch code),
    eq_ite_cases (assembleWords_compute fout), rfl,
    ⟨assembleWords_setdriveMa_even ch, assembleWords_setdriveMa_other ch⟩,
    eq_ite_cases (assembleWords_setfreqx ch fout r)⟩

/-! The response and the status word (R60, R68, R151). -/

/-- Joining a word below shifts the upper one up by the lower one's width. -/
theorem toNat_append_eq_mul_add {m n : Nat} (x : BitVec m) (y : BitVec n) :
    (x ++ y).toNat = x.toNat * 2 ^ n + y.toNat := by
  rw [BitVec.toNat_append, ← Nat.shiftLeft_add_eq_or_of_lt y.isLt, Nat.shiftLeft_eq]

theorem responseWord_result_toNat (a b c : BitVec 32) :
    (responseWord (.result a b c)).toNat = 1 * 2 ^ 126 + a.toNat * 2 ^ 64 + b.toNat * 2 ^ 32 + c.toNat := by
  simp only [responseWord, toNat_append_eq_mul_add, BitVec.reduceToNat]
  omega

theorem responseWord_fault_toNat (code : FaultCode) :
    (responseWord (.fault code)).toNat = 2 * 2 ^ 126 + (faultCodeBits code).toNat * 2 ^ 96 := by
  simp only [responseWord, toNat_append_eq_mul_add, BitVec.reduceToNat]
  omega

/-- Settles O19, by the responses' words as numbers. -/
theorem responseWordFields : Obligations.ResponseWordFields :=
  ⟨responseWord_ok, responseWord_result_toNat, responseWord_fault_toNat, rfl, rfl, rfl, rfl, rfl, rfl, rfl, rfl⟩

/-- Settles O20: FAULT is joined above the four bits of FAULT_CODE. -/
theorem statusShowsFault : Obligations.StatusShowsFault := by
  intro s
  rw [status, toNat_append_eq_mul_add]
  cases s.fault <;> simp

/-! A command's transactions, then its response (R61, R189). -/

/-- No response has KIND 3: KIND is bits 127..126, and the rest of the word lies below (R68). -/
theorem responseWord_kind_ne_three (r : Response) : (responseWord r).extractLsb' 126 2 ≠ 3#2 := by
  have hdiv : ((responseWord r).extractLsb' 126 2).toNat = (responseWord r).toNat / 2 ^ 126 % 2 ^ 2 := by
    rw [BitVec.extractLsb'_toNat, Nat.shiftRight_eq_div_pow]
  intro h
  rw [h] at hdiv
  cases r with
  | ok => exact absurd hdiv (by decide)
  | result a b c =>
    have ha := a.isLt
    have hb := b.isLt
    have hc := c.isLt
    simp only [responseWord_result_toNat, BitVec.reduceToNat] at hdiv
    omega
  | fault code =>
    have hcode := (faultCodeBits code).isLt
    simp only [responseWord_fault_toNat, BitVec.reduceToNat] at hdiv
    omega

/-- From s to t the engine emits at most five transactions, delivers them in order, and then gives one response. -/
def CompletesCommand (s t : State) : Prop :=
  ∃ (ts : List Transaction) (r : RespWord), ts.length ≤ 5 ∧
    t.trace = s.trace ++ ts.map PortEvent.write ++ [.response r] ∧
    t.chip = ts.foldl deliver s.chip ∧ r.extractLsb' 126 2 ≠ 3#2

namespace CompletesCommand

/-- A command that only sets registers answers without a transaction. -/
protected theorem respond {s u : State} (htrace : u.trace = s.trace) (hchip : u.chip = s.chip) (r : Response) :
    CompletesCommand s (respond r u) :=
  ⟨[], responseWord r, by decide, by simp [htrace], by simp [hchip], responseWord_kind_ne_three r⟩

protected theorem initialise (s : State) : CompletesCommand s (initialise s) :=
  ⟨[.w sscAddr sscOffValue, .w oeAddr maskAllDisabled, .w xtalAddr Config.xtalLoadValue, .b pllaMsAddr pllaBlock,
    .w rstAddr rstValue], 0#128, by simp, by simp [initialise_eq], by simp [initialise_eq], by decide⟩

protected theorem programChannel (c : Channel) (f : Packed) (s : State) : CompletesCommand s (programChannel c f s) :=
  ⟨[.b (msAddr c) (multisynthBlock f s.rdiv), .w (ctrlAddr c) (controlByte (readDrive c s)),
    .w oeAddr (maskEnable c s.enMask)], 0#128, by simp, by simp [programChannel_eq], by simp [programChannel_eq],
    by decide⟩

protected theorem disableChannel (c : Channel) (s : State) : CompletesCommand s (disableChannel c s) :=
  ⟨[.w oeAddr (maskDisable c s.enMask)], 0#128, by simp, by simp [disableChannel_eq], by simp [disableChannel_eq],
    by decide⟩

end CompletesCommand

/-- Settles O16, by the effects a command can have. -/
theorem transactionsThenOneResponse : Obligations.TransactionsThenOneResponse := by
  intro i s t h
  show CompletesCommand s t
  rcases exec_cases h with ⟨code, rfl⟩ | ⟨-, -, rfl⟩ | ⟨_, c, _, f, -, -, -, -, -, -, rfl⟩ |
    ⟨_, c, _, -, -, -, -, rfl⟩ | ⟨vco, -, -, rfl⟩ | ⟨r, -, rfl⟩ | ⟨_, c, code, -, -, rfl⟩ | ⟨_, -, -, rfl⟩
  · exact .respond (u := { s with fault := true, faultCode := faultCodeBits code }) rfl rfl (.fault code)
  · exact .initialise s
  · exact .programChannel c f s
  · exact .disableChannel c s
  · exact .respond (u := { s with vcoRef := vco }) rfl rfl .ok
  · exact .respond (u := { s with rdiv := r }) rfl rfl .ok
  · exact .respond (writeDrive_trace c code s) (writeDrive_chip c code s) .ok
  · exact .respond rfl rfl _

/-! The block SETFREQ sends (R105 to R110, R117). -/

/-- The packed fields as numbers: P1 + 512 = 128 × a + floor(128 × b / c), P2 = (128 × b) mod c, P3 = c (R105, R107). -/
theorem packFields_toNat {vco fout : Freq} {f : Packed} (hs : Serviceable fout.toNat)
    (h : packFields (computeDivider vco fout) = some f) :
    f.p1.toNat + 512 = closedP1Plus512 (computeDivider vco fout) ∧
    f.p2.toNat = 128 * (computeDivider vco fout).b % (computeDivider vco fout).c ∧
    f.p3.toNat = (computeDivider vco fout).c := by
  have hc := (closedDivider_c_bounds vco.toNat fout.toNat).1
  have hc0 := closedDivider_c_ge (vco := vco.toNat) hs
  rw [← computeDivider_eq] at hc hc0
  have hp2 := Nat.mod_lt (128 * (computeDivider vco fout).b) (by omega : 0 < (computeDivider vco fout).c)
  rw [packFields_eq] at h
  split at h
  · next hfit =>
    rw [← Option.some.inj h]
    simp only [BitVec.toNat_ofNat]
    omega
  · cases h

/-- N = a × c + b gives (a, b, c) back when b < c, and (a + 1, 0, c) when b = c (R118). -/
theorem unpackDivider_multisynthBlock {f : Packed} {d : Divider} (r : BitVec 3) (hc : 0 < d.c) (hp3 : f.p3.toNat = d.c)
    (hn : (f.p1.toNat + 512) * f.p3.toNat + f.p2.toNat = 128 * (d.a * d.c + d.b)) :
    (d.b < d.c → unpackDivider (multisynthBlock f r) = d) ∧
    (d.b = d.c → unpackDivider (multisynthBlock f r) = { a := d.a + 1, b := 0, c := d.c }) := by
  obtain ⟨h1, h2, h3, -, -⟩ := multisynthBlock_unpacks f r
  have hu : unpackDivider (multisynthBlock f r) =
      { a := (d.a * d.c + d.b) / d.c, b := (d.a * d.c + d.b) % d.c, c := d.c } := by
    rw [unpackDivider, h1, h2, h3, hn, hp3, Nat.mul_div_cancel_left _ (by decide : 0 < 128)]
  refine ⟨fun hlt => ?_, fun heq => ?_⟩
  · rw [hu, Nat.mul_comm, Nat.mul_add_div hc, Nat.mul_add_mod, Nat.div_eq_of_lt hlt, Nat.mod_eq_of_lt hlt, Nat.add_zero]
  · rw [hu, heq, Nat.mul_comm, Nat.mul_add_div hc, Nat.mul_add_mod, Nat.div_self hc, Nat.mod_self]

/-- Settles O27: P1 + 512 and P2 are the quotient and the remainder of 128 × (a × c + b) by c. -/
theorem blockUnpacksToDivider : Obligations.BlockUnpacksToDivider := by
  intro vco fout f r hs hpack
  obtain ⟨h1, h2, h3, hr, hb2⟩ := multisynthBlock_unpacks f r
  obtain ⟨hp1, hp2, hp3⟩ := packFields_toNat hs hpack
  have hc0 := closedDivider_c_ge (vco := vco.toNat) hs
  rw [← computeDivider_eq] at hc0
  have hn : (f.p1.toNat + 512) * f.p3.toNat + f.p2.toNat =
      128 * ((computeDivider vco fout).a * (computeDivider vco fout).c + (computeDivider vco fout).b) := by
    rw [hp1, hp2, hp3, closedP1Plus512, Nat.add_mul, Nat.add_assoc, Nat.div_add_mod']
    ring
  obtain ⟨hlt, heq⟩ := unpackDivider_multisynthBlock r (by omega) hp3 hn
  exact ⟨h1, h2, h3, hr, hb2, hn, hlt, heq⟩

/-- Programming a channel leaves the block's eight bytes in the chip's image: no later write of the command reaches
them (R109, R110, R115). -/
theorem chipByte_programChannel_block (c : Channel) (f : Packed) (s : State) {i : Nat} (hi : i < 8) :
    (programChannel c f s).chipByte (42 + 8 * channelIndex c + i) = some ((multisynthBlock f s.rdiv).byteAt i) := by
  have hc := channelIndex_lt c
  simp only [State.chipByte, programChannel_eq, read_deliver_w, read_deliver_b _ _ _ _ (msAddr_block_fits c),
    msAddr_toNat, ctrlAddr_toNat]
  rw [if_neg (by simp [oeAddr]; omega), if_neg (by omega), if_pos (by omega), Nat.add_sub_cancel_left]

/-- The exponent stands in bits 6..4 of byte 2 (R108, R109). -/
theorem multisynthBlock_b2_exponent (f : Packed) (r : BitVec 3) : (multisynthBlock f r).b2.extractLsb' 4 3 = r := by
  obtain ⟨-, -, -, hr, -⟩ := multisynthBlock_unpacks f r
  rw [unpackRdiv, unpackPW, BitVec.extractLsb'_append_eq_of_le (by decide),
    BitVec.extractLsb'_append_eq_of_le (by decide)] at hr
  exact hr

/-- Settles O39: SETFREQ runs with RDIV = r, and SETRDIV 0 leaves the block as it is. -/
theorem setfreqxPacksItsExponent : Obligations.SetfreqxPacksItsExponent := by
  intro c fout r s hi hs hfit
  let t : State := respond .ok { s with rdiv := r }
  obtain ⟨f, -, hprog⟩ := setFrequency_programs (s := t) c hi hs hfit
  refine ⟨t, programChannel c f t, _, rfl, ?_, rfl, rfl, (multisynthBlock f r).b2, ?_, multisynthBlock_b2_exponent f r⟩
  · simp only [exec, execSetfreq, channelOf_index, hprog]
  · exact chipByte_programChannel_block c f t (i := 2) (by decide)

end Sys2Proof.Machine

/-! The Divider Calculator (O22 to O26), and COMPUTE, which runs it on its own (O28, O29). -/

namespace Sys2Proof.Machine

/-! The normalization loop as one shift, and the ranges of its result (R84 to R86, R105, R107). -/

/-- Settles O22: the loop is one shift, and bounds on k are bounds on fout. -/
theorem normalizationIsOneShift : Obligations.NormalizationIsOneShift := by
  intro vco fout _
  refine ⟨computeDivider_eq vco fout, (closedShift_le_iff _ 12).2 fout.isLt, closedShift_eq_zero_iff _, ?_,
    fun h => (closedShift_le_iff _ 7).2 (by omega)⟩
  rw [computeDivider_eq]
  exact (closedDivider_c_bounds vco.toNat fout.toNat).1

/-- P2's difference is a remainder: 128 × b − q × c = (128 × b) mod c (R107). -/
theorem sub_quotient128_mul (d : Divider) : 128 * d.b - quotient128 d * d.c = 128 * d.b % d.c := by
  rw [quotient128, Nat.mul_comm _ d.c, Nat.mod_def]

/-- A 32-bit VCO frequency over a serviceable fout is at most 8589 (R84). -/
theorem closedDivider_a_le (vco : Freq) {fout : Nat} (h : Serviceable fout) :
    (closedDivider vco.toNat fout).a ≤ 8589 :=
  calc vco.toNat / fout ≤ vco.toNat / 500000 := Nat.div_le_div_left h.1 (by decide)
    _ ≤ 8589 := by omega

/-- Settles O23, from b ≤ c and the bounds on c. -/
theorem dividerRanges : Obligations.DividerRanges := by
  intro vco fout hs
  rw [computeDivider_eq]
  have hb := closedDivider_b_le_c vco.toNat fout.toNat (by omega)
  have hc := closedDivider_c_ge (vco := vco.toNat) hs
  have hc20 := (closedDivider_c_bounds vco.toNat fout.toNat).1
  obtain ⟨hq, hq128⟩ := quotient128_le (by omega) hb
  exact ⟨hb, hc, by omega, closedDivider_a_le vco hs, hq, hq128, sub_quotient128_mul _⟩

/-! The unshifted divider (R89). -/

/-- With no shift, (a, b, c) is the quotient, the remainder and the divisor. -/
theorem closedDivider_unshifted (vco : Nat) {fout : Nat} (h : fout < 2 ^ 20) :
    closedDivider vco fout = { a := vco / fout, b := vco % fout, c := fout } := by
  simp only [closedDivider, (closedShift_eq_zero_iff fout).2 h, Nat.pow_zero, Nat.div_one]

/-- Settles O24: a × c + b = vco with c = fout, so a + b/c is vco / fout. -/
theorem unshiftedDividerIsExact : Obligations.UnshiftedDividerIsExact := by
  intro vco fout hpos hlt hvco
  rw [computeDivider_eq, closedDivider_unshifted _ hlt]
  have hf : (fout.toNat : Rat) ≠ 0 := by exact_mod_cast hpos.ne'
  have hv : (vco.toNat : Rat) ≠ 0 := by exact_mod_cast hvco.ne'
  have hdiv : ((vco.toNat / fout.toNat : Nat) : Rat) * fout.toNat + (vco.toNat % fout.toNat : Nat) = vco.toNat := by
    exact_mod_cast Nat.div_add_mod' vco.toNat fout.toNat
  have hratio : ((vco.toNat / fout.toNat : Nat) : Rat) + (vco.toNat % fout.toNat : Nat) / fout.toNat =
      vco.toNat / fout.toNat := by
    rw [← hdiv, add_div, mul_div_cancel_right₀ _ hf]
  rw [hratio, div_div_cancel₀ hv]

/-! The divider at the nominal VCO frequency (R91, R106). -/

/-- Settles O25: both values run with the engine's loop. -/
theorem numeratorCanEqualDenominator : Obligations.NumeratorCanEqualDenominator :=
  ⟨by decide, by decide⟩

/-- From 2^26 Hz up to FMAX the loop shifts seven times. -/
theorem closedShift_eq_seven {fout : Nat} (hlo : 2 ^ 26 ≤ fout) (hhi : fout ≤ 109000000) : closedShift fout = 7 := by
  have hle := (closedShift_le_iff fout 7).2 (by omega)
  have hge := (closedShift_le_iff fout 6).not.2 (by omega)
  omega

/-- At the nominal VCO frequency, a runs from 8 to 1750. -/
theorem nominal_a_bounds {fout : Nat} (h : Serviceable fout) :
    8 ≤ (closedDivider 875000000 fout).a ∧ (closedDivider 875000000 fout).a ≤ 1750 :=
  ⟨(Nat.le_div_iff_mul_le (by omega)).2 (by omega), Nat.div_le_of_le_mul (by omega)⟩

/-- Where a is least, q is at least 3: at FMAX, 128 × 23_437 is still above 3 × 851_562. -/
theorem nominal_quotient128_ge {fout : Nat} (h : Serviceable fout) (ha : (closedDivider 875000000 fout).a = 8) :
    3 ≤ quotient128 (closedDivider 875000000 fout) := by
  have hdiv : 875000000 / fout = 8 := ha
  have hmod := Nat.div_add_mod' 875000000 fout
  have hlt := Nat.mod_lt 875000000 (by omega : fout > 0)
  have hc := closedDivider_c_ge (vco := 875000000) h
  rw [hdiv] at hmod
  rw [quotient128, Nat.le_div_iff_mul_le (by omega), closedDivider, closedShift_eq_seven (by omega) h.2]
  dsimp only
  omega

/-- Only FMIN has a = 1750, and it divides the nominal VCO frequency, so q is 0 there. -/
theorem nominal_quotient128_eq_zero {fout : Nat} (h : Serviceable fout)
    (ha : (closedDivider 875000000 fout).a = 1750) : quotient128 (closedDivider 875000000 fout) = 0 := by
  have hle : 1750 * fout ≤ 875000000 := (Nat.le_div_iff_mul_le (by omega)).1 (Nat.le_of_eq ha.symm)
  obtain rfl : fout = 500000 := by omega
  decide

/-- Settles O26: P1 is least at a = 8 with q = 3, and greatest at a = 1750 with q = 0. -/
theorem nominalDividerFits : Obligations.NominalDividerFits := by
  intro fout hs
  obtain ⟨-, -, -, -, hq, -⟩ := dividerRanges 875000000#32 fout hs
  rw [computeDivider_eq] at hq ⊢
  simp only [BitVec.reduceToNat] at hq ⊢
  obtain ⟨ha8, ha1750⟩ := nominal_a_bounds hs
  have hq3 := nominal_quotient128_ge hs
  have hq0 := nominal_quotient128_eq_zero hs
  rw [rawP1]
  omega

/-! COMPUTE (R87, R88). -/

/-- RESULT's word carries a, b and c as they are (R68, R88). -/
theorem responseWord_divisorResponse (d : Divider) : responseWord (divisorResponse d) = resultWord d.a d.b d.c := by
  have hhead : (0b01#2 ++ 0#26 ++ 0#4 : BitVec 32) = 0b01#2 ++ 0#30 := by decide
  simp only [divisorResponse, responseWord, resultWord, hhead]

theorem exec_compute_serviceable (s : State) {fout : Freq} (h : Serviceable fout.toNat) :
    exec (.compute fout) s = .next (respond (divisorResponse (computeDivider s.vcoRef fout)) s) := by
  simp only [exec, execCompute, (inRange_eq_true fout).2 h, if_true]

theorem exec_compute_outOfRange (s : State) {fout : Freq} (h : ¬Serviceable fout.toNat) :
    exec (.compute fout) s = .next (raiseFault .computeOutOfRange s) := by
  simp [exec, execCompute, (inRange_eq_false fout).2 h]

/-- Settles O28: COMPUTE responds with the divider in closed form. -/
theorem computeAnswersResult : Obligations.ComputeAnswersResult := by
  intro s fout h
  rw [exec_compute_serviceable s h, respond, responseWord_divisorResponse, computeDivider_eq]

/-- Settles O29: outside the bounds COMPUTE faults, and a fault changes nothing else. -/
theorem computeOutOfRangeFaults : Obligations.ComputeOutOfRangeFaults := by
  intro s fout h
  rw [exec_compute_outOfRange s (by omega), raiseFault_eq, faultCodeBits]

end Sys2Proof.Machine

/-! SETFREQ: what it does in each case (O30 to O35), run twice (O38), and the channels' states (O40). -/

namespace Sys2Proof.Machine

/-! SETFREQ of an existing channel (R100 to R106). -/

theorem exec_setfreq_index (c : Channel) (fout : Freq) (s : State) :
    exec (.setfreq (BitVec.ofNat 2 (channelIndex c)) fout) s = .next (setFrequency c fout s) := by
  simp only [exec, execSetfreq, channelOf_index]

/-- INIT_DONE, VCO_REF and fout alone choose whether SETFREQ faults, programs its channel or shuts it off. -/
theorem setFrequency_chooses (c : Channel) (fout : Freq) (done : Bool) (vco : Freq) :
    (∃ code, ∀ s : State, s.initDone = done → s.vcoRef = vco → setFrequency c fout s = raiseFault code s) ∨
    (Serviceable fout.toNat ∧
      ∃ f, ∀ s : State, s.initDone = done → s.vcoRef = vco → setFrequency c fout s = programChannel c f s) ∨
    (¬Serviceable fout.toNat ∧
      ∀ s : State, s.initDone = done → s.vcoRef = vco → setFrequency c fout s = disableChannel c s) := by
  cases done with
  | false => exact .inl ⟨_, fun s hi _ => setFrequency_uninitialised c fout hi⟩
  | true =>
    by_cases hr : Serviceable fout.toNat
    · cases hpk : packFields (computeDivider vco fout) with
      | none =>
        refine .inl ⟨.dividerOutOfField, fun s hi hv => ?_⟩
        simp only [setFrequency, hi, hv, if_true, (inRange_eq_true fout).2 hr, hpk]
      | some f =>
        refine .inr (.inl ⟨hr, f, fun s hi hv => ?_⟩)
        simp only [setFrequency, hi, hv, if_true, (inRange_eq_true fout).2 hr, hpk]
    · exact .inr (.inr ⟨hr, fun s hi _ => setFrequency_outOfRange c hi hr⟩)

/-! What the commands that emit leave in EN_MASK and in the fault registers (R103, R114, R121, R155). -/

@[simp] theorem initialise_enMask (s : State) : (initialise s).enMask = maskAllDisabled := by
  rw [initialise_eq, maskAllDisabled]
@[simp] theorem initialise_fault (s : State) : (initialise s).fault = s.fault := by rw [initialise_eq]

@[simp] theorem programChannel_enMask (c : Channel) (f : Packed) (s : State) :
    (programChannel c f s).enMask = maskEnable c s.enMask := by rw [programChannel_eq]
@[simp] theorem programChannel_fault (c : Channel) (f : Packed) (s : State) :
    (programChannel c f s).fault = s.fault := by rw [programChannel_eq]
@[simp] theorem programChannel_faultCode (c : Channel) (f : Packed) (s : State) :
    (programChannel c f s).faultCode = s.faultCode := by rw [programChannel_eq]

@[simp] theorem disableChannel_enMask (c : Channel) (s : State) :
    (disableChannel c s).enMask = maskDisable c s.enMask := by rw [disableChannel_eq]
@[simp] theorem disableChannel_fault (c : Channel) (s : State) :
    (disableChannel c s).fault = s.fault := by rw [disableChannel_eq]
@[simp] theorem disableChannel_faultCode (c : Channel) (s : State) :
    (disableChannel c s).faultCode = s.faultCode := by rw [disableChannel_eq]

/-! The chip registers a command reaches, as numbers (R110, R113, R114). -/

theorem msAddr_eq (c : Channel) : msAddr c = BitVec.ofNat 8 (42 + 8 * channelIndex c) := by cases c <;> rfl

theorem ctrlAddr_eq (c : Channel) : ctrlAddr c = BitVec.ofNat 8 (16 + channelIndex c) := by cases c <;> rfl

/-- Every chip register after a channel is programmed: its block, its control register and the mask's do not overlap
(R46), so the order of the writes plays no part. -/
theorem chipByte_programChannel (c : Channel) (f : Packed) (s : State) (a : Nat) :
    (programChannel c f s).chipByte a =
      if 42 + 8 * channelIndex c ≤ a ∧ a ≤ 49 + 8 * channelIndex c then
        some ((multisynthBlock f s.rdiv).byteAt (a - (42 + 8 * channelIndex c)))
      else if a = 16 + channelIndex c then some (controlByte (readDrive c s))
      else if a = 3 then some (maskEnable c s.enMask)
      else s.chipByte a := by
  have hc := channelIndex_lt c
  have hend : 42 + 8 * channelIndex c + 7 = 49 + 8 * channelIndex c := by omega
  simp only [State.chipByte, programChannel_eq, read_deliver_w, read_deliver_b _ _ _ _ (msAddr_block_fits c),
    msAddr_toNat, ctrlAddr_toNat, hend, show oeAddr.toNat = 3 from rfl]
  by_cases h3 : a = 3
  · rw [if_pos h3, if_neg (by omega), if_neg (by omega), if_pos h3]
  · by_cases hctrl : a = 16 + channelIndex c
    · rw [if_neg h3, if_pos hctrl, if_neg (by omega), if_pos hctrl]
    · simp only [if_neg h3, if_neg hctrl]

theorem chipByte_disableChannel (c : Channel) (s : State) (a : Nat) :
    (disableChannel c s).chipByte a = if a = 3 then some (maskDisable c s.enMask) else s.chipByte a := by
  simp only [State.chipByte, disableChannel_eq, read_deliver_w, show oeAddr.toNat = 3 from rfl]

/-! The effect of SETFREQ in each case. -/

/-- Settles O30: the channel is programmed, with the block in closed form. -/
theorem setfreqProgramsChannel : Obligations.SetfreqProgramsChannel := by
  intro c fout s hi hr hfit
  obtain ⟨f, hpack, hprog⟩ := setFrequency_programs c hi hr hfit
  have hblock := multisynthBlock_packed s.rdiv hr hpack
  refine ⟨(programChannel c f s).chip, ?_, fun a => ?_⟩
  · rw [exec_setfreq_index, hprog, programChannel_eq, msAddr_eq, ctrlAddr_eq, controlByte_eq, hblock]
    rfl
  · rw [← hblock, ← controlByte_eq]
    exact chipByte_programChannel c f s a

/-- Settles O31: the channel is shut off. -/
theorem setfreqOutOfRangeDisables : Obligations.SetfreqOutOfRangeDisables := by
  intro c fout s hi hr
  refine ⟨(disableChannel c s).chip, ?_, chipByte_disableChannel c s⟩
  rw [exec_setfreq_index, setFrequency_outOfRange c hi (by omega), disableChannel_eq]
  rfl

/-- Settles O32: INIT_DONE is checked before anything else. -/
theorem setfreqBeforeInitFaults : Obligations.SetfreqBeforeInitFaults := by
  intro c fout s hi
  rw [exec_setfreq_index, setFrequency_uninitialised c fout hi, raiseFault_eq, faultCodeBits]

/-- Settles O33: a P1 that does not fit faults before the first write. -/
theorem setfreqOutOfFieldFaults : Obligations.SetfreqOutOfFieldFaults := by
  intro c fout s hi hr hfit
  rw [exec_setfreq_index, setFrequency_outOfField c hi hr hfit, raiseFault_eq, faultCodeBits]

/-- At the nominal VCO frequency P1 runs from 515 to 223_488, inside its field (R106). -/
theorem nominal_fitsP1 {fout : Freq} (h : Serviceable fout.toNat) : FitsP1 (875000000#32 : Freq).toNat fout.toNat := by
  obtain ⟨-, -, hlo, hhi⟩ := nominalDividerFits fout h
  rw [rawP1_eq, computeDivider_eq] at hlo hhi
  omega

/-- Settles O34: the channel is programmed or shut off, and neither writes FAULT or FAULT_CODE. -/
theorem nominalSetfreqNeverFaults : Obligations.NominalSetfreqNeverFaults := by
  intro c fout s hi hvco
  refine ⟨_, exec_setfreq_index c fout s, ?_⟩
  by_cases hr : Serviceable fout.toNat
  · obtain ⟨f, -, hprog⟩ := setFrequency_programs c hi hr (hvco ▸ nominal_fitsP1 hr)
    rw [hprog]
    exact ⟨programChannel_fault c f s, programChannel_faultCode c f s⟩
  · rw [setFrequency_outOfRange c hi hr]
    exact ⟨disableChannel_fault c s, disableChannel_faultCode c s⟩

/-- Settles O35: a run that leaves FAULT = 0 programs the channel or shuts it off. -/
theorem setfreqEmissionOrder : Obligations.SetfreqEmissionOrder := by
  intro c fout s t _ h ht
  rw [exec_setfreq_index] at h
  cases h
  rcases setFrequency_chooses c fout s.initDone s.vcoRef with ⟨code, he⟩ | ⟨hr, f, he⟩ | ⟨hr, he⟩ <;>
    rw [he s rfl rfl] at ht ⊢
  · rw [raiseFault_fault] at ht
    cases ht
  · refine ⟨fun _ => ⟨multisynthBlock f s.rdiv, controlByte (readDrive c s), ?_⟩, fun hn => absurd hr hn⟩
    rw [transactionsOf_programChannel, msAddr_eq, ctrlAddr_eq, programChannel_enMask, oeAddr]
  · refine ⟨fun hs => absurd hs hr, fun _ => ?_⟩
    rw [transactionsOf_disableChannel, disableChannel_enMask, oeAddr]

/-! A command run twice (R119). -/

/-- From s to t and from t to u the same events leave the engine, and the second run changes no register and no byte of
the chip's image. -/
def RunsAlike (s t u : State) : Prop :=
  ∃ es : List PortEvent, t.trace = s.trace ++ es ∧ u = { t with trace := t.trace ++ es, chip := u.chip } ∧
    ∀ a : Nat, u.chipByte a = t.chipByte a

namespace RunsAlike

protected theorem raiseFault (code : FaultCode) (s : State) :
    RunsAlike s (raiseFault code s) (raiseFault code (raiseFault code s)) :=
  ⟨[.response (responseWord (.fault code))], rfl, rfl, fun _ => rfl⟩

/-- The first run leaves RDIV and DRIVE[c], and clearing the mask's bit again changes nothing. -/
protected theorem programChannel (c : Channel) (f : Packed) (s : State) :
    RunsAlike s (programChannel c f s) (programChannel c f (programChannel c f s)) := by
  have hrdiv : (programChannel c f s).rdiv = s.rdiv := by rw [programChannel_eq]
  have hdrive : readDrive c (programChannel c f s) = readDrive c s := by
    rw [programChannel_eq]
    cases c <;> rfl
  have hmask : maskEnable c (programChannel c f s).enMask = maskEnable c s.enMask := by
    rw [programChannel_enMask, (mask_twice c s.enMask).1]
  refine ⟨[.write (.b (msAddr c) (multisynthBlock f s.rdiv)), .write (.w (ctrlAddr c) (controlByte (readDrive c s))),
    .write (.w oeAddr (maskEnable c s.enMask)), .response 0#128], by rw [programChannel_eq], ?_, fun a => ?_⟩
  · rw [programChannel_eq c f (programChannel c f s), hrdiv, hdrive, hmask, ← programChannel_enMask c f s]
  · rw [chipByte_programChannel c f (programChannel c f s), hrdiv, hdrive, hmask, chipByte_programChannel c f s]
    split_ifs <;> rfl

protected theorem disableChannel (c : Channel) (s : State) :
    RunsAlike s (disableChannel c s) (disableChannel c (disableChannel c s)) := by
  have hmask : maskDisable c (disableChannel c s).enMask = maskDisable c s.enMask := by
    rw [disableChannel_enMask, (mask_twice c s.enMask).2]
  refine ⟨[.write (.w oeAddr (maskDisable c s.enMask)), .response 0#128], by rw [disableChannel_eq], ?_, fun a => ?_⟩
  · rw [disableChannel_eq c (disableChannel c s), hmask, ← disableChannel_enMask c s]
  · rw [chipByte_disableChannel c (disableChannel c s), hmask, chipByte_disableChannel c s]
    split_ifs <;> rfl

end RunsAlike

/-- Settles O38: the first run leaves INIT_DONE and VCO_REF, so the second one takes the same path. -/
theorem setfreqIsIdempotent : Obligations.SetfreqIsIdempotent := by
  intro c fout s t u ht hu
  show RunsAlike s t u
  obtain ⟨hvco, -, -, -, -, hinit, -⟩ := setfreqFrame _ _ _ _ ht
  rw [exec_setfreq_index] at ht hu
  cases ht
  cases hu
  rcases setFrequency_chooses c fout s.initDone s.vcoRef with ⟨code, he⟩ | ⟨-, f, he⟩ | ⟨-, he⟩ <;>
    rw [he _ hinit hvco, he s rfl rfl]
  · exact .raiseFault code s
  · exact .programChannel c f s
  · exact .disableChannel c s

/-! The channels' states (R116). -/

theorem isEnabled_maskAllDisabled (d : Channel) : isEnabled d maskAllDisabled = false := by cases d <;> decide

/-- Settles O40, by the effects a command can have: only a fault sets FAULT, and only INIT and SETFREQ write EN_MASK. -/
theorem channelStateTransitions : Obligations.ChannelStateTransitions := by
  intro i s t hs h
  rcases exec_cases h with ⟨code, rfl⟩ | ⟨rfl, -, rfl⟩ | ⟨ch, c, fout, f, rfl, hch, -, hr, -, -, rfl⟩ |
    ⟨ch, c, fout, rfl, hch, -, hr, rfl⟩ | ⟨vco, rfl, -, rfl⟩ | ⟨r, rfl, rfl⟩ | ⟨ch, c, code, rfl, -, rfl⟩ |
    ⟨fout, rfl, -, rfl⟩
  · exact ⟨fun _ => raiseFault_enMask code s, fun hf => by simp at hf⟩
  · exact ⟨fun hf => by simp [hs] at hf, fun _ d => by simp [isEnabled_maskAllDisabled]⟩
  · refine ⟨fun hf => by simp [hs] at hf, fun _ => ⟨c, hch, ?_, fun d hd => ?_⟩⟩
    · exact iff_of_true (by simp [isEnabled_mask]) hr
    · simp [isEnabled_mask, hd]
  · refine ⟨fun hf => by simp [hs] at hf, fun _ => ⟨c, hch, ?_, fun d hd => ?_⟩⟩
    · exact iff_of_false (by simp [isEnabled_mask]) hr
    · simp [isEnabled_mask, hd]
  · exact ⟨fun _ => rfl, fun _ => rfl⟩
  · exact ⟨fun _ => rfl, fun _ => rfl⟩
  · exact ⟨fun _ => writeDrive_enMask c code s, fun _ => writeDrive_enMask c code s⟩
  · exact ⟨fun _ => rfl, fun _ => rfl⟩

end Sys2Proof.Machine

/-! INIT (O41 to O44) and the configuration commands (O45 to O49). -/

namespace Sys2Proof.Machine

/-! INIT: the bytes its writes leave in the chip's image, and a second INIT (R120 to R125). -/

theorem exec_init_first {s : State} (hi : s.initDone = false) : exec .init s = .next (initialise s) := by
  simp [exec, execInit, hi]

theorem exec_init_again {s : State} (hi : s.initDone = true) : exec .init s = .next (raiseFault .reinit s) := by
  simp [exec, execInit, hi]

/-- Every chip register after INIT: its five writes reach different registers, so their order plays no part. -/
theorem chipByte_initialise (s : State) (a : Nat) :
    (initialise s).chipByte a =
      if 26 ≤ a ∧ a ≤ 33 then some (pllaBlock.byteAt (a - 26))
      else if a = 149 then some sscOffValue
      else if a = 3 then some maskAllDisabled
      else if a = 183 then some Config.xtalLoadValue
      else if a = 177 then some rstValue
      else s.chipByte a := by
  have hblock : pllaMsAddr.toNat + 7 < 256 := by decide
  simp only [State.chipByte, initialise_eq, read_deliver_w, read_deliver_b _ _ _ _ hblock,
    show pllaMsAddr.toNat = 26 from rfl, show sscAddr.toNat = 149 from rfl, show oeAddr.toNat = 3 from rfl,
    show xtalAddr.toNat = 183 from rfl, show rstAddr.toNat = 177 from rfl]
  by_cases hw : a = 149 ∨ a = 3 ∨ a = 183 ∨ a = 177
  · rcases hw with rfl | rfl | rfl | rfl <;> simp
  · obtain ⟨h149, h3, h183, h177⟩ : a ≠ 149 ∧ a ≠ 3 ∧ a ≠ 183 ∧ a ≠ 177 := by simpa only [not_or] using hw
    simp only [if_neg h149, if_neg h3, if_neg h183, if_neg h177]

/-- Settles O41: INIT's state, with the chip's image register by register. -/
theorem initWritesSequence : Obligations.InitWritesSequence := by
  intro s hi
  refine ⟨(initialise s).chip, ?_, chipByte_initialise s⟩
  rw [exec_init_first hi, initialise_eq]
  rfl

/-- Settles O42: INIT_DONE is checked before the first write. -/
theorem secondInitFaults : Obligations.SecondInitFaults := by
  intro s hi
  rw [exec_init_again hi, raiseFault_eq, faultCodeBits]

/-- Settles O43: one divider, packed and laid out by the engine's own functions. -/
theorem vcoBlockIsPackedDivider : Obligations.VcoBlockIsPackedDivider :=
  ⟨by decide, by decide⟩

/-! The configuration commands, case by case (R131 to R134). -/

theorem respond_ok_eq (s : State) : respond .ok s = { s with trace := s.trace ++ [.response 0#128] } := by
  rw [respond, responseWord_ok]

/-- Settles O45: the one check of SETVCO does not apply. -/
theorem setvcoSetsReference : Obligations.SetvcoSetsReference := by
  intro vco s hv
  simp only [exec, execSetvco, anyEnabled_eq_true, if_neg hv, respond_ok_eq]

/-- Settles O46: the one check of SETVCO applies, and a fault leaves VCO_REF. -/
theorem setvcoZeroWhileEnabledFaults : Obligations.SetvcoZeroWhileEnabledFaults := by
  intro s hen
  simp only [exec, execSetvco, anyEnabled_eq_true, hen, and_self, if_true, raiseFault_eq, faultCodeBits]

/-- Settles O47: SETRDIV has no check. -/
theorem setrdivSetsExponent : Obligations.SetrdivSetsExponent := by
  intro r s
  rw [exec, execSetrdiv, respond_ok_eq]

theorem exec_setdrive_index (c : Channel) (code : BitVec 2) (s : State) :
    exec (.setdrive (BitVec.ofNat 2 (channelIndex c)) code) s = .next (respond .ok (writeDrive c code s)) := by
  simp only [exec, execSetdrive, channelOf_index]

/-- Settles O48: each of the three operands names its channel. -/
theorem setdriveSetsCode : Obligations.SetdriveSetsCode := by
  intro code s
  simp only [← responseWord_ok]
  exact ⟨exec_setdrive_index .ch0 code s, exec_setdrive_index .ch1 code s, exec_setdrive_index .ch2 code s⟩

/-! What the configuration commands leave alone (R130, R185, R186). -/

/-- A configuration command that completes or faults sets at most its own register, FAULT and FAULT_CODE, and answers. -/
theorem exec_configuration_frame {i : Instr} {s t : State} (hinit : i ≠ .init) (hset : ∀ ch fout, i ≠ .setfreq ch fout)
    (h : exec i s = .next t) :
    transactionsOf t.trace = transactionsOf s.trace ∧ t.chip = s.chip ∧ t.enMask = s.enMask ∧
      t.initDone = s.initDone ∧ t.inputs = s.inputs := by
  rcases exec_cases h with ⟨code, rfl⟩ | ⟨hi, -, -⟩ | ⟨_, _, _, _, hi, -⟩ | ⟨_, _, _, hi, -⟩ | ⟨vco, -, -, rfl⟩ |
    ⟨r, -, rfl⟩ | ⟨_, c, code, -, -, rfl⟩ | ⟨_, -, -, rfl⟩
  case inr.inl => exact absurd hi hinit
  case inr.inr.inl => exact absurd hi (hset _ _)
  case inr.inr.inr.inl => exact absurd hi (hset _ _)
  all_goals simp [transactionsOf]

/-- No configuration command reads INIT_DONE: each one's checks and effect are the same with another value of it. -/
theorem exec_configuration_withInitDone {i : Instr} {s t : State} (hinit : i ≠ .init)
    (hset : ∀ ch fout, i ≠ .setfreq ch fout) (h : exec i s = .next t) (d : Bool) :
    exec i { s with initDone := d } = .next { t with initDone := d } := by
  cases i with
  | init => exact absurd rfl hinit
  | setfreq ch fout => exact absurd rfl (hset ch fout)
  | setvco vco =>
    by_cases hv : vco = 0#32 ∧ SomeEnabled s
    · obtain ⟨rfl, hen⟩ := hv
      rw [setvcoZeroWhileEnabledFaults s hen] at h
      cases h
      exact setvcoZeroWhileEnabledFaults { s with initDone := d } hen
    · rw [setvcoSetsReference vco s hv] at h
      cases h
      exact setvcoSetsReference vco { s with initDone := d } hv
  | setrdiv r =>
    cases h
    rfl
  | setdrive ch code =>
    simp only [exec, execSetdrive] at h ⊢
    split at h <;> cases h
    · rfl
    · next c _ => cases c <;> rfl
  | compute fout =>
    by_cases hr : Serviceable fout.toNat
    · rw [exec_compute_serviceable s hr] at h
      cases h
      exact exec_compute_serviceable { s with initDone := d } hr
    · rw [exec_compute_outOfRange s hr] at h
      cases h
      exact exec_compute_outOfRange { s with initDone := d } hr

/-- Settles O49, from the frame and from INIT_DONE being unread. -/
theorem configurationEmitsNothing : Obligations.ConfigurationEmitsNothing := by
  intro i s t hinit hset h
  obtain ⟨htrans, hchip, hmask, hdone, hin⟩ := exec_configuration_frame hinit hset h
  exact ⟨htrans, fun a => by rw [State.chipByte, hchip, State.chipByte], hmask, hdone, hin,
    exec_configuration_withInitDone hinit hset h⟩

/-! What only INIT writes is not written again (R44, R123). -/

/-- From s to t, INIT_DONE is 1 at the end and the chip registers only INIT writes keep their bytes. -/
def KeepsInit (s t : State) : Prop :=
  t.initDone = true ∧
    ∀ a : Nat, ((26 ≤ a ∧ a ≤ 33) ∨ a = 149 ∨ a = 177 ∨ a = 183) → t.chipByte a = s.chipByte a

namespace KeepsInit

variable {s t : State}

protected theorem of_chip_eq (hi : s.initDone = true) (hdone : t.initDone = s.initDone) (hchip : t.chip = s.chip) :
    KeepsInit s t :=
  ⟨hdone.trans hi, fun a _ => by rw [State.chipByte, hchip, State.chipByte]⟩

/-- SETFREQ reaches registers 16 to 18, 42 to 65 and 3 only. -/
protected theorem setfreq (hi : s.initDone = true) {ch : BitVec 2} {fout : Freq}
    (h : exec (.setfreq ch fout) s = .next t) : KeepsInit s t := by
  obtain ⟨-, -, -, -, -, hdone, -, -, hchip, hnone⟩ := setfreqFrame ch fout s t h
  refine ⟨hdone.trans hi, fun a ha => ?_⟩
  cases hc : channelOf ch with
  | none => exact hnone hc a
  | some c =>
    have hlt := channelIndex_lt c
    refine hchip c hc a ?_ ?_ ?_
    · rw [msAddr_toNat]
      omega
    · rw [ctrlAddr_toNat]
      omega
    · rw [show oeAddr.toNat = 3 from rfl]
      omega

/-- A second INIT faults, SETFREQ has its own registers, and the configuration commands write none. -/
protected theorem exec (hi : s.initDone = true) {i : Instr} (h : exec i s = .next t) : KeepsInit s t := by
  by_cases hinit : i = .init
  · subst hinit
    rw [exec_init_again hi] at h
    cases h
    exact .of_chip_eq hi rfl rfl
  · by_cases hset : ∃ ch fout, i = .setfreq ch fout
    · obtain ⟨ch, fout, rfl⟩ := hset
      exact .setfreq hi h
    · obtain ⟨-, hchip, -, hdone, -⟩ := exec_configuration_frame hinit (fun ch fout he => hset ⟨ch, fout, he⟩) h
      exact .of_chip_eq hi hdone hchip

end KeepsInit

/-- Settles O44, one case for each thing a step other than the reset event can do. -/
theorem initRegistersWrittenOnce : Obligations.InitRegistersWrittenOnce := by
  intro s t hi ht hreset
  show KeepsInit s t
  rcases step_cases ht with ⟨-, rfl⟩ | ⟨rest, hin, -⟩ | ⟨_, _, -, -, rfl⟩ | ⟨_, _, _, -, -, -, rfl⟩ |
    ⟨_, rest, _, -, -, -, hexec⟩
  · exact .of_chip_eq hi rfl rfl
  · exact absurd hin (hreset rest)
  · exact .of_chip_eq hi rfl rfl
  · exact .of_chip_eq hi rfl rfl
  · exact KeepsInit.exec (s := { s with inputs := rest }) hi hexec

end Sys2Proof.Machine

/-! The faults of a command word in the spec's order, and the stopped engine (O12 to O15). -/

namespace Sys2Proof.Machine

/-! The fault of an accepted command, and what its execution then leaves (R67, R87, R101, R106, R125, R132, R155). -/

/-- The fault an accepted command raises, the first that applies in R154's order, none where the command completes.
`exec_reports` ties it to the machine, `firstFault_of_decode` to the order the statements use. -/
def commandFault (s : State) : Instr → Option FaultCode
  | .init => if s.initDone = true then some .reinit else none
  | .setfreq ch fout =>
    if ch = 3#2 then some .illegalChannel
    else if s.initDone = false then some .notInitialised
    else if Serviceable fout.toNat ∧ ¬FitsP1 s.vcoRef.toNat fout.toNat then some .dividerOutOfField
    else none
  | .setvco vco => if vco = 0#32 ∧ SomeEnabled s then some .vcoZeroWhileEnabled else none
  | .setrdiv _ => none
  | .setdrive ch _ => if ch = 3#2 then some .illegalChannel else none
  | .compute fout => if ¬Serviceable fout.toNat then some .computeOutOfRange else none

/-- From s to t exactly this fault is reported, and where there is none FAULT and FAULT_CODE stay (R150, R155). -/
def ReportsFault (code : Option (BitVec 4)) (s t : State) : Prop :=
  match code with
  | some code => t = s.faulted code
  | none => t.fault = s.fault ∧ t.faultCode = s.faultCode

protected theorem ReportsFault.raiseFault (code : FaultCode) (s : State) :
    ReportsFault (some (faultCodeBits code)) s (raiseFault code s) :=
  raiseFault_eq code s

theorem exists_channelOf {ch : BitVec 2} (h : ch ≠ 3#2) : ∃ c, channelOf ch = some c :=
  Option.ne_none_iff_exists'.1 (mt channelOf_eq_none.1 h)

/-- SETFREQ of an existing channel faults only in the states of R101 and R106. -/
theorem setFrequency_reports (c : Channel) {ch : BitVec 2} (hch : ch ≠ 3#2) (fout : Freq) (s : State) :
    ReportsFault ((commandFault s (.setfreq ch fout)).map faultCodeBits) s (setFrequency c fout s) := by
  rw [commandFault, if_neg hch]
  split
  · next hi =>
    rw [setFrequency_uninitialised c fout hi]
    exact .raiseFault _ s
  · next hi =>
    have hi : s.initDone = true := by simpa using hi
    split
    · next hp =>
      rw [setFrequency_outOfField c hi hp.1 hp.2]
      exact .raiseFault _ s
    · next hp =>
      by_cases hr : Serviceable fout.toNat
      · obtain ⟨f, -, he⟩ := setFrequency_programs c hi hr (not_not.1 fun hf => hp ⟨hr, hf⟩)
        rw [he]
        exact ⟨programChannel_fault c f s, programChannel_faultCode c f s⟩
      · rw [setFrequency_outOfRange c hi hr]
        exact ⟨disableChannel_fault c s, disableChannel_faultCode c s⟩

/-- Every instruction completes in every state, and reports exactly the fault that applies to it. -/
theorem exec_reports (i : Instr) (s : State) :
    ∃ t, exec i s = .next t ∧ ReportsFault ((commandFault s i).map faultCodeBits) s t := by
  cases i with
  | init =>
    rw [commandFault]
    split
    · next hi => exact ⟨_, exec_init_again hi, .raiseFault _ s⟩
    · next hi =>
      refine ⟨_, exec_init_first (by simpa using hi), initialise_fault s, ?_⟩
      rw [initialise_eq]
  | setfreq ch fout =>
    by_cases hch : ch = 3#2
    · subst hch
      exact ⟨_, exec_setfreq_channel_three fout s, rfl⟩
    · obtain ⟨c, hc⟩ := exists_channelOf hch
      exact ⟨setFrequency c fout s, by simp only [exec, execSetfreq, hc], setFrequency_reports c hch fout s⟩
  | setvco vco =>
    rw [commandFault]
    split
    · next hv =>
      obtain ⟨rfl, hen⟩ := hv
      exact ⟨_, setvcoZeroWhileEnabledFaults s hen, rfl⟩
    · next hv => exact ⟨_, setvcoSetsReference vco s hv, rfl, rfl⟩
  | setrdiv r => exact ⟨_, setrdivSetsExponent r s, rfl, rfl⟩
  | setdrive ch code =>
    rw [commandFault]
    split
    · next hch =>
      subst hch
      exact ⟨_, exec_setdrive_channel_three code s, rfl⟩
    · next hch =>
      obtain ⟨c, hc⟩ := exists_channelOf hch
      refine ⟨respond .ok (writeDrive c code s), by simp only [exec, execSetdrive, hc], ?_⟩
      exact ⟨writeDrive_fault c code s, writeDrive_faultCode c code s⟩
  | compute fout =>
    rw [commandFault]
    split
    · next hr => exact ⟨_, exec_compute_outOfRange s hr, .raiseFault _ s⟩
    · next hr => exact ⟨_, exec_compute_serviceable s (not_not.1 hr), rfl, rfl⟩

/-- Settles O13: an instruction that sets FAULT reports a fault, and reporting it changes nothing else. -/
theorem faultingCommandChangesNothingElse : Obligations.FaultingCommandChangesNothingElse := by
  intro i s t hs h ht
  obtain ⟨t', he, hrep⟩ := exec_reports i s
  cases h.symm.trans he
  cases hc : commandFault s i with
  | none =>
    rw [hc] at hrep
    exact absurd (hrep.1.trans hs) (by simp [ht])
  | some code =>
    rw [hc] at hrep
    exact ⟨faultCodeBits code, (faultCodeBits_bounds code).1, (faultCodeBits_bounds code).2, hrep⟩

/-! The fault of a word, decode faults first (R65, R66, R154). -/

@[simp] theorem unlessReserved_ne_illegalOpcode (b : Bool) (i : Instr) :
    unlessReserved b i ≠ .rejected .illegalOpcode := by
  cases b <;> simp [unlessReserved]

/-- The decoder reports an illegal opcode exactly for the opcodes of R65: each of the six commands' words is accepted or
has reserved bits set. -/
theorem decode_eq_illegalOpcode_iff (w : CmdWord) : decode w = .rejected .illegalOpcode ↔ ReservedOpcode w := by
  refine ⟨fun hd => ?_, decode_reservedOpcode⟩
  rcases opcode_cases w with h | h | h | h | h | h | h
  · simp [decode_opInit h] at hd
  · simp [decode_opSetfreq h] at hd
  · simp [decode_opSetvco h] at hd
  · simp [decode_opSetrdiv h] at hd
  · simp [decode_opSetdrive h] at hd
  · simp [decode_opCompute h] at hd
  · exact h

theorem fieldCh_eq_three (w : CmdWord) : fieldCh w = 3#2 ↔ wordCh w = 3 := by
  rw [← (fields_toNat w).2.2.1]
  exact BitVec.toNat_inj.symm

/-- A rejected word's first fault is its decode fault. -/
theorem firstFault_of_rejected {w : CmdWord} {why : FaultCode} (h : decode w = .rejected why) (s : State) :
    firstFault w s = some (faultCodeBits why) := by
  by_cases hr : ReservedOpcode w
  · cases (decode_reservedOpcode hr).symm.trans h
    exact if_pos hr
  · rcases decode_rejected h with rfl | rfl
    · exact absurd ((decode_eq_illegalOpcode_iff w).1 h) hr
    · rw [firstFault, if_neg hr, if_pos ((decode_eq_reservedBits_iff hr).1 h), faultCodeBits]

/-- An accepted word's first fault is its command's. -/
theorem firstFault_of_decode {w : CmdWord} {i : Instr} (h : decode w = .instr i) (s : State) :
    firstFault w s = (commandFault s i).map faultCodeBits := by
  have hr : ¬ReservedOpcode w := fun hr => by simp [decode_reservedOpcode hr] at h
  have hb : ¬ReservedBitsSet w := fun hb => by simp [(decode_eq_reservedBits_iff hr).2 hb] at h
  have hdata : (fieldData w).toNat = wordData w := (fields_toNat w).2.2.2
  rw [firstFault, if_neg hr, if_neg hb]
  obtain ⟨-, ⟨rfl, hop, -⟩ | ⟨rfl, hop⟩ | ⟨rfl, hop, -⟩ | ⟨rfl, hop, -⟩ | ⟨rfl, hop, -⟩ | ⟨rfl, hop, -⟩⟩ :=
    decode_cases h
  all_goals have hopw := (fieldOp_eq_iff w _).1 hop
  · simp [commandFault, hopw, opInit, apply_ite (Option.map faultCodeBits), faultCodeBits]
  · simp [commandFault, hopw, opSetfreq, apply_ite (Option.map faultCodeBits), faultCodeBits, fieldCh_eq_three, hdata]
  · simp [commandFault, hopw, opSetvco, apply_ite (Option.map faultCodeBits), faultCodeBits]
  · simp [commandFault, hopw, opSetrdiv]
  · simp [commandFault, hopw, opSetdrive, apply_ite (Option.map faultCodeBits), faultCodeBits, fieldCh_eq_three]
  · simp [commandFault, hopw, opCompute, apply_ite (Option.map faultCodeBits), faultCodeBits, hdata]

/-- Every accepted word is answered in every state, and reports exactly the first fault that applies to it. -/
theorem runWord_reports (w : CmdWord) (s : State) : ∃ t, runWord w s = .next t ∧ ReportsFault (firstFault w s) s t := by
  cases hd : decode w with
  | instr i =>
    rw [runWord_instr hd, firstFault_of_decode hd]
    exact exec_reports i s
  | rejected why =>
    rw [runWord_rejected hd, firstFault_of_rejected hd]
    exact ⟨_, rfl, rfl⟩

/-- Settles O12: the step accepts the word, and taking it off the host's inputs does not change its first fault. -/
theorem firstApplicableFaultReported : Obligations.FirstApplicableFaultReported := by
  intro s t w rest hin hs hstep
  obtain ⟨t', hrun, hrep⟩ := runWord_reports w { s with inputs := rest }
  rw [step_command hin hs, hrun] at hstep
  cases hstep
  have hff : firstFault w { s with inputs := rest } = firstFault w s := rfl
  rw [hff] at hrep
  cases hf : firstFault w s with
  | none =>
    rw [hf] at hrep
    exact ⟨hrep.1.trans hs, hrep.2⟩
  | some code =>
    rw [hf] at hrep
    exact hrep

/-! The step of a stopped engine, and of any (R152, R189). -/

/-- Settles O14: of the steps FAULT = 1 allows, only the reset event clears it. -/
theorem stoppedUntilReset : Obligations.StoppedUntilReset := by
  refine ⟨fun s w rest hs hin => ⟨rest, step_stopped hin hs, rfl⟩, fun s t hs hstep ht => ?_⟩
  rcases step_cases hstep with ⟨-, rfl⟩ | ⟨rest, hin, -⟩ | ⟨_, _, -, -, rfl⟩ | ⟨_, _, _, -, hs', -⟩ |
    ⟨_, _, _, -, hs', -⟩
  case inr.inl => exact ⟨rest, hin⟩
  · exact absurd ht (by simp [hs])
  · exact absurd ht (by simp [hs])
  · exact absurd hs' (by simp [hs])
  · exact absurd hs' (by simp [hs])

/-- Settles O15, by the host's next input and, for a command, by whether the engine has stopped. -/
theorem everyStepCompletes : Obligations.EveryStepCompletes := by
  intro s
  match hin : s.inputs with
  | [] => exact ⟨_, step_waiting hin⟩
  | .reset :: rest => exact ⟨_, step_reset hin⟩
  | .command w :: rest =>
    cases hs : s.fault with
    | true => exact ⟨_, step_stopped hin hs⟩
    | false =>
      rw [step_command hin hs]
      obtain ⟨t, hrun, -⟩ := runWord_reports w { s with inputs := rest }
      exact ⟨t, hrun⟩

end Sys2Proof.Machine

/-! The waiting engine and the reset event (O8, O17, O18), and the invariant right after reset (O53). -/

namespace Sys2Proof.Machine

/-- Settles O8: with no host input a step waits. -/
theorem engineWaitsForCommand : Obligations.EngineWaitsForCommand := fun _ hin => step_waiting hin

/-- Settles O17: the reset event takes every register from the state after power-on. -/
theorem resetStateValues : Obligations.ResetStateValues := by
  rintro t (rfl | ⟨s, rfl⟩)
  · simp [State.reset]
  · simp [State.reset]

/-- Settles O18: the step takes the reset event off the inputs, and the event keeps the other inputs and the records. -/
theorem resetEventSetsRegisters : Obligations.ResetEventSetsRegisters := by
  intro s rest hin
  rw [step_reset hin, resetEvent, State.reset]

/-- Settles O53: every channel is disabled, no fault stands, and the records are empty. -/
theorem resetKeepsEngineRules : Obligations.ResetKeepsEngineRules :=
  have hoff : ¬SomeEnabled State.reset := not_someEnabled_of_allDisabled rfl
  { reservedOnes := by decide
    vcoNonzero := fun he => absurd he hoff
    enabledAfterInit := fun he => absurd he hoff
    faultCodeNamed := ⟨iff_of_true rfl rfl, by decide⟩
    chipCanonical := rfl
    chipMapped := fun _ ha => absurd rfl ha
    chipReplayed := rfl
    maskDelivered := fun hi => by cases hi }

end Sys2Proof.Machine
